-- ==== Sys2Proof/Word.lean ====
section
/-! DEFINITION. The words of the SMOKE-16 and the names of its registers (spec/00_scope.md section 5,
spec/10_state.md R10, R12). -/

namespace Sys2Proof

/-- A word: 16 bits, the width of every register (R10). -/
abbrev Word := BitVec 16

/-- A byte: 8 bits, the smallest addressable unit (R40). -/
abbrev Byte := BitVec 8

/-- A 4-bit field of an instruction word (R71). -/
abbrev Nibble := BitVec 4

/-- The sixteen general registers by number (R12). `r0` is the hardwired zero register (R11). -/
inductive Reg where
  | r0 | r1 | r2 | r3 | r4 | r5 | r6 | r7 | r8 | r9 | r10 | r11 | r12 | r13 | r14 | r15
deriving DecidableEq, Repr

/-- The four system registers (R10, R30): `%s0`/`%pc`, `%s1`/`%ps`, `%s2`/`%pt`, `%s3`/`%tt`. -/
inductive SysReg where
  | pc | ps | pt | tt
deriving DecidableEq, Repr

end Sys2Proof
end

