-- ==== Sys2Proof/Syntax.lean ====
section
/-! DEFINITION. The 32 actual instructions (spec/30_encoding.md R70 to R74), one constructor per row of
spec/opcode_table.json, with the row's fields as operands in the row's order. Every operand has exactly the
width of its field; what a field means is said in Machine/Operands.lean. -/

namespace Sys2Proof

/-- An actual instruction. `off` is the stored word offset, half of `<offset4>` (R76); `d` is the stored
displacement in words (R80); `ssrc` and `sdest` are the 4-bit system register numbers as encoded, of which only
0 to 3 name a register (R75). -/
inductive Instr where
  -- primary map (R72)
  | add (rdest rsrc rarg : Reg)
  | sub (rdest rsrc rarg : Reg)
  | rol (rdest rsrc : Reg) (immed4 : Nibble)
  | ror (rdest rsrc : Reg) (immed4 : Nibble)
  | and (rdest rsrc rarg : Reg)
  | or (rdest rsrc rarg : Reg)
  | ld (rdest : Reg) (off : Nibble) (raddr : Reg)
  | sethi (rdest : Reg) (imm8 : Byte)
  | sl (rdest rsrc : Reg) (immed4 : Nibble)
  | sr (rdest rsrc : Reg) (immed4 : Nibble)
  | srl (rdest rsrc : Reg) (immed4 : Nibble)
  | xor (rdest rsrc rarg : Reg)
  | jal (rret roff raddr : Reg)
  | st (rsrc : Reg) (off : Nibble) (raddr : Reg)
  | movbImm (rdest : Reg) (imm8 : Byte)
  -- secondary map (R73)
  | not (rdest rsrc : Reg)
  | cmp (rsrc1 rsrc2 : Reg)
  | ldb (rdest raddr : Reg)
  | stb (rsrc raddr : Reg)
  | lds (rdest : Reg) (ssrc : Nibble)
  | sts (rsrc : Reg) (sdest : Nibble)
  | bl (d : Byte)
  | be (d : Byte)
  | bne (d : Byte)
  | bge (d : Byte)
  | bg (d : Byte)
  | b (d : Byte)
  | int (immed7 : BitVec 7)
  | subi (rdest : Reg) (immed4 : Nibble)
  | addi (rdest : Reg) (immed4 : Nibble)
  -- tertiary map (R74)
  | nop
  | iret
deriving DecidableEq, Repr

end Sys2Proof
end

