-- ==== Sys2Proof/WellFormed.lean ====
section
/-! DEFINITION. The one check on an instruction that the types of its operands do not already make.

Every register, immediate, count, offset and displacement has the exact width of its field (Syntax.lean), so a
value outside its field cannot be built. What remains is R75: the system register field of `lds` and `sts` is 4
bits wide and only the numbers 0 to 3 name a register. A word that fails this check still decodes (R82) and still
has a meaning (R108, R109): the check says that the instruction names only registers that exist. -/

namespace Sys2Proof

/-- R75: a system register field that names one of `%s0` to `%s3`. -/
def namesSysReg (n : Nibble) : Bool := decide (n.toNat ≤ 3)

/-- The instruction names only registers the machine has (R75). -/
def wellFormed : Instr → Bool
  | .lds _ n => namesSysReg n
  | .sts _ n => namesSysReg n
  | .add _ _ _ | .sub _ _ _ | .rol _ _ _ | .ror _ _ _ | .and _ _ _ | .or _ _ _ | .ld _ _ _ | .sethi _ _
  | .sl _ _ _ | .sr _ _ _ | .srl _ _ _ | .xor _ _ _ | .jal _ _ _ | .st _ _ _ | .movbImm _ _
  | .not _ _ | .cmp _ _ | .ldb _ _ | .stb _ _
  | .bl _ | .be _ | .bne _ | .bge _ | .bg _ | .b _ | .int _ | .subi _ _ | .addi _ _ | .nop | .iret => true

end Sys2Proof
end

