-- ==== Sys2Proof/Decode.lean ====
section
/-! DEFINITION. Decoding and encoding (spec/30_encoding.md R71 to R84), with the bit-field and byte-order helpers
both use. Decoding is total on every word and every list of bytes, and a word no row fits is rejected by name. -/

namespace Sys2Proof

/-! ### Bit fields and byte order -/

/-- Bits 15 to 12 of a word (op4 of R71). -/
def nib3 (w : Word) : Nibble := w.extractLsb' 12 4

/-- Bits 11 to 8 of a word (field a, or sub4, of R71). -/
def nib2 (w : Word) : Nibble := w.extractLsb' 8 4

/-- Bits 7 to 4 of a word (field b of R71). -/
def nib1 (w : Word) : Nibble := w.extractLsb' 4 4

/-- Bits 3 to 0 of a word (field c or n of R71). -/
def nib0 (w : Word) : Nibble := w.extractLsb' 0 4

/-- The upper half of a word, bits 15 to 8. -/
def hiByte (w : Word) : Byte := w.extractLsb' 8 8

/-- The lower half of a word, bits 7 to 0. -/
def loByte (w : Word) : Byte := w.extractLsb' 0 8

/-- The address is odd: bit 0 is set (R49, R50). -/
def isOdd (a : Word) : Bool := a.getLsbD 0

/-- The word with upper half `h` and lower half `l`: the notation for concatenation of spec/00_scope.md 5.1, and
the big-endian word whose lower-addressed byte is `h` (R44). -/
def ofBytes (h l : Byte) : Word := h ++ l

/-- Four 4-bit fields side by side, the first in bits 15 to 12 (formats R3, RI4, M, R2, RI of R71). -/
def pack4 (o a b c : Nibble) : Word := o ++ a ++ b ++ c

/-- Two 4-bit fields and a byte (formats I8 and B of R71). -/
def pack8 (o a : Nibble) (i : Byte) : Word := o ++ a ++ i

/-! ### Register fields (R75) -/

/-- The register number in a 4-bit field, directly. -/
def Reg.ofField : Nibble → Reg
  | 0#4 => .r0 | 1#4 => .r1 | 2#4 => .r2 | 3#4 => .r3
  | 4#4 => .r4 | 5#4 => .r5 | 6#4 => .r6 | 7#4 => .r7
  | 8#4 => .r8 | 9#4 => .r9 | 10#4 => .r10 | 11#4 => .r11
  | 12#4 => .r12 | 13#4 => .r13 | 14#4 => .r14 | _ => .r15

/-- The 4-bit field of a register. -/
def Reg.field : Reg → Nibble
  | .r0 => 0#4 | .r1 => 1#4 | .r2 => 2#4 | .r3 => 3#4
  | .r4 => 4#4 | .r5 => 5#4 | .r6 => 6#4 | .r7 => 7#4
  | .r8 => 8#4 | .r9 => 9#4 | .r10 => 10#4 | .r11 => 11#4
  | .r12 => 12#4 | .r13 => 13#4 | .r14 => 14#4 | .r15 => 15#4

/-- The system register a 4-bit field names, if it names one: 0 `%pc`, 1 `%ps`, 2 `%pt`, 3 `%tt` (R75). -/
def SysReg.ofField : Nibble → Option SysReg
  | 0#4 => some .pc | 1#4 => some .ps | 2#4 => some .pt | 3#4 => some .tt | _ => none

/-- The number of a system register. -/
def SysReg.field : SysReg → Nibble
  | .pc => 0#4 | .ps => 1#4 | .pt => 2#4 | .tt => 3#4

/-! ### Decoding (R84) -/

/-- Why bytes are no instruction: the word is one of the 382 unassigned ones (R82), or there are fewer than the
two bytes an instruction has (R70). -/
inductive DecodeReject where
  | reservedInstruction (w : Word)
  | truncated
deriving DecidableEq, Repr

/-- The secondary and tertiary maps: words whose bits 15 to 12 are all ones (R73, R74). -/
def decodeSecondary (w : Word) : Except DecodeReject Instr :=
  match nib2 w with
  | 0x0#4 => .ok (.not (.ofField (nib1 w)) (.ofField (nib0 w)))
  | 0x1#4 => .ok (.cmp (.ofField (nib1 w)) (.ofField (nib0 w)))
  | 0x2#4 => .ok (.ldb (.ofField (nib1 w)) (.ofField (nib0 w)))
  | 0x3#4 => .ok (.stb (.ofField (nib1 w)) (.ofField (nib0 w)))
  | 0x4#4 => .ok (.lds (.ofField (nib1 w)) (nib0 w))
  | 0x5#4 => .ok (.sts (.ofField (nib1 w)) (nib0 w))
  | 0x6#4 => .ok (.bl (loByte w))
  | 0x7#4 => .ok (.be (loByte w))
  | 0x8#4 => .ok (.bne (loByte w))
  | 0x9#4 => .ok (.bge (loByte w))
  | 0xa#4 => .ok (.bg (loByte w))
  | 0xb#4 => .ok (.b (loByte w))
  | 0xc#4 => if w.getLsbD 7 then .error (.reservedInstruction w) else .ok (.int (w.extractLsb' 0 7))
  | 0xd#4 => .ok (.subi (.ofField (nib1 w)) (nib0 w))
  | 0xe#4 => .ok (.addi (.ofField (nib1 w)) (nib0 w))
  | _ =>
    if w = 0xfff0#16 then .ok .nop
    else if w = 0xffff#16 then .ok .iret
    else .error (.reservedInstruction w)

/-- The decoder of R84: bits 15 to 12 select the primary map (R72), all ones the secondary. -/
def decode (w : Word) : Except DecodeReject Instr :=
  match nib3 w with
  | 0x0#4 => .ok (.add (.ofField (nib2 w)) (.ofField (nib1 w)) (.ofField (nib0 w)))
  | 0x1#4 => .ok (.sub (.ofField (nib2 w)) (.ofField (nib1 w)) (.ofField (nib0 w)))
  | 0x2#4 => .ok (.rol (.ofField (nib2 w)) (.ofField (nib1 w)) (nib0 w))
  | 0x3#4 => .ok (.ror (.ofField (nib2 w)) (.ofField (nib1 w)) (nib0 w))
  | 0x4#4 => .ok (.and (.ofField (nib2 w)) (.ofField (nib1 w)) (.ofField (nib0 w)))
  | 0x5#4 => .ok (.or (.ofField (nib2 w)) (.ofField (nib1 w)) (.ofField (nib0 w)))
  | 0x6#4 => .ok (.ld (.ofField (nib2 w)) (nib1 w) (.ofField (nib0 w)))
  | 0x7#4 => .ok (.sethi (.ofField (nib2 w)) (loByte w))
  | 0x8#4 => .ok (.sl (.ofField (nib2 w)) (.ofField (nib1 w)) (nib0 w))
  | 0x9#4 => .ok (.sr (.ofField (nib2 w)) (.ofField (nib1 w)) (nib0 w))
  | 0xa#4 => .ok (.srl (.ofField (nib2 w)) (.ofField (nib1 w)) (nib0 w))
  | 0xb#4 => .ok (.xor (.ofField (nib2 w)) (.ofField (nib1 w)) (.ofField (nib0 w)))
  | 0xc#4 => .ok (.jal (.ofField (nib2 w)) (.ofField (nib1 w)) (.ofField (nib0 w)))
  | 0xd#4 => .ok (.st (.ofField (nib2 w)) (nib1 w) (.ofField (nib0 w)))
  | 0xe#4 => .ok (.movbImm (.ofField (nib2 w)) (loByte w))
  | _ => decodeSecondary w

/-- The decoder on bytes in the order they stand in memory: two bytes, the upper half first (R45), and the bytes
left over. -/
def decodeBytes : List Byte → Except DecodeReject (Instr × List Byte)
  | h :: l :: rest => (decode (ofBytes h l)).map fun i => (i, rest)
  | _ => .error .truncated

/-- The decoder on a table word: the word's two bytes as the hardware stores them, given to `decodeBytes`. Bits
from `nbits` up are zero; a number that no 16-bit word holds is no instruction (R70). -/
def decodeTableWord (nbits w : Nat) : Option Instr :=
  let v := w % 2 ^ nbits
  if v < 65536 then
    match decodeBytes [hiByte (BitVec.ofNat 16 v), loByte (BitVec.ofNat 16 v)] with
    | .ok (i, _) => some i
    | .error _ => none
  else none

/-! ### Encoding (R72 to R74) -/

/-- The word of an instruction, field by field as its row's "assignment" column places them. -/
def encode : Instr → Word
  | .add rd rs ra => pack4 0x0#4 rd.field rs.field ra.field
  | .sub rd rs ra => pack4 0x1#4 rd.field rs.field ra.field
  | .rol rd rs n => pack4 0x2#4 rd.field rs.field n
  | .ror rd rs n => pack4 0x3#4 rd.field rs.field n
  | .and rd rs ra => pack4 0x4#4 rd.field rs.field ra.field
  | .or rd rs ra => pack4 0x5#4 rd.field rs.field ra.field
  | .ld rd off ra => pack4 0x6#4 rd.field off ra.field
  | .sethi rd i => pack8 0x7#4 rd.field i
  | .sl rd rs n => pack4 0x8#4 rd.field rs.field n
  | .sr rd rs n => pack4 0x9#4 rd.field rs.field n
  | .srl rd rs n => pack4 0xa#4 rd.field rs.field n
  | .xor rd rs ra => pack4 0xb#4 rd.field rs.field ra.field
  | .jal rr ro ra => pack4 0xc#4 rr.field ro.field ra.field
  | .st rs off ra => pack4 0xd#4 rs.field off ra.field
  | .movbImm rd i => pack8 0xe#4 rd.field i
  | .not rd rs => pack4 0xf#4 0x0#4 rd.field rs.field
  | .cmp rs1 rs2 => pack4 0xf#4 0x1#4 rs1.field rs2.field
  | .ldb rd ra => pack4 0xf#4 0x2#4 rd.field ra.field
  | .stb rs ra => pack4 0xf#4 0x3#4 rs.field ra.field
  | .lds rd ss => pack4 0xf#4 0x4#4 rd.field ss
  | .sts rs sd => pack4 0xf#4 0x5#4 rs.field sd
  | .bl d => pack8 0xf#4 0x6#4 d
  | .be d => pack8 0xf#4 0x7#4 d
  | .bne d => pack8 0xf#4 0x8#4 d
  | .bge d => pack8 0xf#4 0x9#4 d
  | .bg d => pack8 0xf#4 0xa#4 d
  | .b d => pack8 0xf#4 0xb#4 d
  | .int n => pack8 0xf#4 0xc#4 (n.setWidth 8)
  | .subi rd n => pack4 0xf#4 0xd#4 rd.field n
  | .addi rd n => pack4 0xf#4 0xe#4 rd.field n
  | .nop => 0xfff0#16
  | .iret => 0xffff#16

/-! ### The opcode table (R84, spec/opcode_table.json) -/

/-- One row of the opcode table: a word `w` is this row's instruction when `w &&& mask = value`. -/
structure OpcodeRow where
  mnemonic : String
  mask : Word
  value : Word
deriving DecidableEq, Repr

/-- The row an instruction belongs to. -/
def rowOf : Instr → OpcodeRow
  | .add _ _ _ => ⟨"add", 0xf000#16, 0x0000#16⟩
  | .sub _ _ _ => ⟨"sub", 0xf000#16, 0x1000#16⟩
  | .rol _ _ _ => ⟨"rol", 0xf000#16, 0x2000#16⟩
  | .ror _ _ _ => ⟨"ror", 0xf000#16, 0x3000#16⟩
  | .and _ _ _ => ⟨"and", 0xf000#16, 0x4000#16⟩
  | .or _ _ _ => ⟨"or", 0xf000#16, 0x5000#16⟩
  | .ld _ _ _ => ⟨"ld", 0xf000#16, 0x6000#16⟩
  | .sethi _ _ => ⟨"sethi", 0xf000#16, 0x7000#16⟩
  | .sl _ _ _ => ⟨"sl", 0xf000#16, 0x8000#16⟩
  | .sr _ _ _ => ⟨"sr", 0xf000#16, 0x9000#16⟩
  | .srl _ _ _ => ⟨"srl", 0xf000#16, 0xa000#16⟩
  | .xor _ _ _ => ⟨"xor", 0xf000#16, 0xb000#16⟩
  | .jal _ _ _ => ⟨"jal", 0xf000#16, 0xc000#16⟩
  | .st _ _ _ => ⟨"st", 0xf000#16, 0xd000#16⟩
  | .movbImm _ _ => ⟨"movb_imm", 0xf000#16, 0xe000#16⟩
  | .not _ _ => ⟨"not", 0xff00#16, 0xf000#16⟩
  | .cmp _ _ => ⟨"cmp", 0xff00#16, 0xf100#16⟩
  | .ldb _ _ => ⟨"ldb", 0xff00#16, 0xf200#16⟩
  | .stb _ _ => ⟨"stb", 0xff00#16, 0xf300#16⟩
  | .lds _ _ => ⟨"lds", 0xff00#16, 0xf400#16⟩
  | .sts _ _ => ⟨"sts", 0xff00#16, 0xf500#16⟩
  | .bl _ => ⟨"bl", 0xff00#16, 0xf600#16⟩
  | .be _ => ⟨"be", 0xff00#16, 0xf700#16⟩
  | .bne _ => ⟨"bne", 0xff00#16, 0xf800#16⟩
  | .bge _ => ⟨"bge", 0xff00#16, 0xf900#16⟩
  | .bg _ => ⟨"bg", 0xff00#16, 0xfa00#16⟩
  | .b _ => ⟨"b", 0xff00#16, 0xfb00#16⟩
  | .int _ => ⟨"int", 0xff80#16, 0xfc00#16⟩
  | .subi _ _ => ⟨"subi", 0xff00#16, 0xfd00#16⟩
  | .addi _ _ => ⟨"addi", 0xff00#16, 0xfe00#16⟩
  | .nop => ⟨"nop", 0xffff#16, 0xfff0#16⟩
  | .iret => ⟨"iret", 0xffff#16, 0xffff#16⟩

/-- The word fits the row. -/
def OpcodeRow.fits (row : OpcodeRow) (w : Word) : Bool := w &&& row.mask == row.value

/-- The table: the row of one instruction per constructor, in the table's order. -/
def opcodeTable : List OpcodeRow :=
  [rowOf (.add .r0 .r0 .r0), rowOf (.sub .r0 .r0 .r0), rowOf (.rol .r0 .r0 0), rowOf (.ror .r0 .r0 0),
   rowOf (.and .r0 .r0 .r0), rowOf (.or .r0 .r0 .r0), rowOf (.ld .r0 0 .r0), rowOf (.sethi .r0 0),
   rowOf (.sl .r0 .r0 0), rowOf (.sr .r0 .r0 0), rowOf (.srl .r0 .r0 0), rowOf (.xor .r0 .r0 .r0),
   rowOf (.jal .r0 .r0 .r0), rowOf (.st .r0 0 .r0), rowOf (.movbImm .r0 0), rowOf (.not .r0 .r0)] ++
  [rowOf (.cmp .r0 .r0), rowOf (.ldb .r0 .r0), rowOf (.stb .r0 .r0), rowOf (.lds .r0 0),
   rowOf (.sts .r0 0), rowOf (.bl 0), rowOf (.be 0), rowOf (.bne 0), rowOf (.bge 0), rowOf (.bg 0), rowOf (.b 0),
   rowOf (.int 0), rowOf (.subi .r0 0), rowOf (.addi .r0 0), rowOf .nop, rowOf .iret]

end Sys2Proof
end

