-- ==== Sys2Proof/Machine/Memory.lean ====
section
/-! DEFINITION. Memory as plain data (spec/20_memory.md R40 to R43): an array of 65536 bytes is the list of the
bytes that differ from `fillByte`, in rising order of address; the machine has one such array or two. -/

namespace Sys2Proof.Machine

/-- An array of bytes: (address, byte) pairs, in the canonical form of `Memory.wf`. -/
abbrev Memory := List Host.Cell

/-- What an unlisted address reads as. The spec leaves launch memory open (R34): DESIGN CHOICE, log 3 (unsafe). -/
def fillByte : Byte := 0x00#8

/-- The canonical form: addresses strictly rising and below 65536, no entry equal to `fillByte`. -/
abbrev Memory.wf (m : Memory) : Prop :=
  m.Pairwise (fun c d => c.1 < d.1) ∧ ∀ c ∈ m, c.1 < 65536 ∧ c.2 ≠ fillByte

/-- The byte at an address. -/
def Memory.read : Memory → Nat → Byte
  | [], _ => fillByte
  | (k, b) :: m, a => if k = a then b else Memory.read m a

/-- The memory without its entries for an address. -/
def Memory.erase : Memory → Nat → Memory
  | [], _ => []
  | (k, b) :: m, a => if k = a then Memory.erase m a else (k, b) :: Memory.erase m a

/-- An entry put before the first entry of a higher address. -/
def Memory.insert : Memory → Nat → Byte → Memory
  | [], a, v => [(a, v)]
  | (k, b) :: m, a, v => if a < k then (a, v) :: (k, b) :: m else (k, b) :: Memory.insert m a v

/-- Store a byte, keeping the canonical form: storing `fillByte` removes the entry. -/
def Memory.write (m : Memory) (a : Nat) (v : Byte) : Memory :=
  if v = fillByte then m.erase a else (m.erase a).insert a v

/-- The memory whose bytes are those of a list of cells, the later of two cells for one address winning; cells
outside the 65536 addresses are dropped. -/
def Memory.ofCells (cells : List Host.Cell) : Memory :=
  cells.foldl (fun m c => if c.1 < 65536 then m.write c.1 c.2 else m) []

/-- The two address spaces (R40, R42): instruction space is read by fetch, data space by loads and stores. -/
inductive Space where
  | instr | data
deriving DecidableEq, Repr

/-- The memory of the machine, in one of the two configurations the source allows (R41): one array for both spaces
(`UNIFIED = true`), or one array each (`UNIFIED = false`). A step never changes the configuration (R33). -/
inductive Spaces where
  | unified (m : Memory)
  | split (text data : Memory)
deriving DecidableEq, Repr

/-- The parameter UNIFIED (R41). -/
def Spaces.isUnified : Spaces → Bool
  | .unified _ => true
  | .split _ _ => false

/-- The array a space reads. -/
def Spaces.view : Spaces → Space → Memory
  | .unified m, _ => m
  | .split t _, .instr => t
  | .split _ d, .data => d

/-- The array of a space replaced; in the unified configuration both spaces see it. -/
def Spaces.put : Spaces → Space → Memory → Spaces
  | .unified _, _, m => .unified m
  | .split _ d, .instr, m => .split m d
  | .split t _, .data, m => .split t m

/-- Every array is canonical. -/
abbrev Spaces.wf (sp : Spaces) : Prop := (sp.view .instr).wf ∧ (sp.view .data).wf

/-- A range of addresses of one space, both ends included, where no memory is present. -/
structure AbsentRange where
  space : Space
  first : Word
  last : Word
deriving DecidableEq, Repr

/-- The address lies in the range. -/
def AbsentRange.covers (r : AbsentRange) (sp : Space) (a : Word) : Bool :=
  r.space == sp && decide (r.first.toNat ≤ a.toNat) && decide (a.toNat ≤ r.last.toNat)

/-- The parameter MEM_VALID(space, addr) (R43): no range of the list says that the byte is absent. -/
def memValid (absent : List AbsentRange) (sp : Space) (a : Word) : Bool :=
  !absent.any fun r => r.covers sp a

end Sys2Proof.Machine
end

