-- ==== Sys2Proof/Machine/Regs.lean ====
section
/-! DEFINITION. The general register file (spec/10_state.md R10 to R13). General register 0 is not stored: it reads
0x0000 and a write to it is discarded (R11). -/

namespace Sys2Proof.Machine

/-- General registers 1 to 15, 16 bits each. -/
structure Regs where
  r1 : Word
  r2 : Word
  r3 : Word
  r4 : Word
  r5 : Word
  r6 : Word
  r7 : Word
  r8 : Word
  r9 : Word
  r10 : Word
  r11 : Word
  r12 : Word
  r13 : Word
  r14 : Word
  r15 : Word
deriving DecidableEq, Repr, Inhabited

/-- `x[i]` (spec/00_scope.md 5.2): the value a register reads as; register 0 always reads 0x0000 (R11). -/
def Regs.get (f : Regs) : Reg → Word
  | .r0 => 0#16
  | .r1 => f.r1 | .r2 => f.r2 | .r3 => f.r3 | .r4 => f.r4 | .r5 => f.r5
  | .r6 => f.r6 | .r7 => f.r7 | .r8 => f.r8 | .r9 => f.r9 | .r10 => f.r10
  | .r11 => f.r11 | .r12 => f.r12 | .r13 => f.r13 | .r14 => f.r14 | .r15 => f.r15

/-- `x[i] <- v`: a write to register 0 has no effect (R11). -/
def Regs.set (f : Regs) (r : Reg) (v : Word) : Regs :=
  match r with
  | .r0 => f
  | .r1 => { f with r1 := v }
  | .r2 => { f with r2 := v }
  | .r3 => { f with r3 := v }
  | .r4 => { f with r4 := v }
  | .r5 => { f with r5 := v }
  | .r6 => { f with r6 := v }
  | .r7 => { f with r7 := v }
  | .r8 => { f with r8 := v }
  | .r9 => { f with r9 := v }
  | .r10 => { f with r10 := v }
  | .r11 => { f with r11 := v }
  | .r12 => { f with r12 := v }
  | .r13 => { f with r13 := v }
  | .r14 => { f with r14 := v }
  | .r15 => { f with r15 := v }

/-- Every register at the same value. -/
def Regs.all (v : Word) : Regs := ⟨v, v, v, v, v, v, v, v, v, v, v, v, v, v, v⟩

end Sys2Proof.Machine
end

