-- ==== Sys2Proof/Config.lean ====
section
/-! DEFINITION. What an implementation, or the environment, fixes and the spec leaves open (spec/00_scope.md R4).

`SHIFT_C` and `ENV_CALL` are opaque: nothing can be proved of their values, so a theorem of the model holds for every
function they could be. `UNIFIED` and `MEM_VALID` are plain data of a state (Machine/State.lean), where a theorem
about every state covers every value. -/

namespace Sys2Proof.Config

/-- The five rotates and shifts, the first argument of SHIFT_C (R181). -/
inductive ShiftOp where
  | rol | ror | sl | sr | srl
deriving DecidableEq, Repr

/-- SHIFT_C(op, v, n, c_old) (R181): C after a rotate or shift, a total function of these four arguments. The source
does not define it. A free value, log 9. -/
opaque shiftC : ShiftOp → Word → Nibble → Bool → Bool

/-- What the environment sees of the state at an interrupt call: `x[1..15]`, C, Z, all of memory, and pc, the address
of the `int` (R240). -/
structure EnvView where
  regs : Machine.Regs
  c : Bool
  z : Bool
  mem : Machine.Spaces
  pc : Word
deriving DecidableEq, Repr

/-- What the environment answers (R240): `Resume(S')`, with every part of S' it may have changed, or `Halt(info)`.
`data` lists the bytes of data space (of the one space, when unified) after the call. The type of `info` is a
DESIGN CHOICE, log 12. -/
inductive EnvAnswer where
  | resume (regs : Machine.Regs) (c z : Bool) (data : List Host.Cell)
  | halt (info : Nat)
deriving DecidableEq, Repr, Inhabited

/-- ENV_CALL (R240) at the numbers the environment implements (which those are is `State.unimplemented`), a relation: a free answer for each call `n` from each view, and a fresh one for each `tick`, the
number of calls made before. Nothing constrains it. A free value, log 10. -/
opaque envCall : Nat → BitVec 7 → EnvView → EnvAnswer

/-- ENTRY_PC of the reset state (R34: open, even). The spec's examples launch at 0x0100. DESIGN CHOICE, log 5. -/
def entryPc : Word := 0x0100#16

end Sys2Proof.Config
end

