-- ==== Sys2Proof/Machine/State.lean ====
section
/-! DEFINITION. The state of the machine as plain data (spec/10_state.md), the reasons a step can stop
(spec/60_exceptions.md R281), and the state right after reset (R34; spec/70_reset_and_hazards.md R311). -/

namespace Sys2Proof.Machine

/-- Whether the run goes on or has ended normally, which only an environment call answering `Halt(info)` does (R300).
The model's own state, log 12. -/
inductive RunStatus where
  | running
  | halted (info : Nat)
deriving DecidableEq, Repr

/-- The whole state. `ps` is kept as one 16-bit word with the fields of R21: K bit 15, IPL bits 14:8, C bit 7, Z bit 6,
RSV bits 5:0. `mem` is data and instruction space in one of the two configurations (R41). `absent` is the parameter
MEM_VALID (R43) and `unimplemented` the interrupt numbers that the environment does not implement (R240: ENV_CALL may be
partial, log 13), which no step changes. `run` and `envTick` (the number of interrupt calls made) are the model's own
fields, log 12 and log 10. -/
structure State where
  regs : Regs
  pc : Word
  ps : Word
  pt : Word
  tt : Word
  mem : Spaces
  absent : List AbsentRange
  unimplemented : List (BitVec 7)
  run : RunStatus
  envTick : Nat
deriving DecidableEq, Repr

/-- The model stops of R281, each with what it records. None is a trap: the run goes no further and the stopping
instruction has changed nothing (R6, R280). Each is safe: nothing can be proved of what a machine does afterwards. -/
inductive Fault where
  /-- The pc is odd at the start of a step (R50). Raised by the fetch, before anything is read. Safe. -/
  | misalignedFetch (addr : Word)
  /-- A word load or store has an odd effective address (R49). Raised by `ld` and `st`. Safe. -/
  | misalignedAccess (addr : Word)
  /-- A byte of the access lies where MEM_VALID says there is no memory (R43). Raised by the fetch (space `instr`) and
  by `ld`, `st`, `ldb`, `stb` (space `data`). Safe. -/
  | invalidAddress (space : Space) (addr : Word)
  /-- The fetched word is one of the 382 unassigned words (R82). Raised at decode. Safe. -/
  | reservedInstruction (word : Word)
  /-- `lds`, `sts` or `iret` with K = 0 (R292). Raised by those three, with their own word. Safe. -/
  | privilegeViolation (word : Word)
  /-- Supervisor-mode behaviour the source leaves blank, with the text of the rule that raises it: `lds` and `sts` of a
  system register number above 3 (R108, R109), `sts` and `iret` with K = 1 (R109, R241); `int` of a number the
  environment does not implement, in either mode (R240, R281). Safe. -/
  | unspecified (reason : String)
deriving DecidableEq, Repr

/-- Reasons an instruction has no meaning in the model. -/
inductive Refusal where
  /-- The instruction has no meaning yet. Raised by no arm of `exec`: every instruction has its meaning. Safe. -/
  | notModelled (mnemonic : String)
deriving DecidableEq, Repr

/-- The outcome of a step of this machine. -/
abbrev Outcome := Host.Outcome State Fault Refusal

/-- The machine right after reset, one launch state of R311. K = 0 and `x[0]` = 0 are the spec's (R34). The spec gives
no other reset value: the registers and flags at zero (log 4, log 6, log 8), the pc at `Config.entryPc` (log 5), the
unified configuration (log 1) with all memory present (log 2) and nothing listed (log 3), and an environment that
implements every interrupt number (log 13), are DESIGN CHOICES. -/
def State.reset : State :=
  { regs := Regs.all 0x0000#16
    pc := Config.entryPc
    ps := 0x0000#16
    pt := 0x0000#16
    tt := 0x0000#16
    mem := .unified []
    absent := []
    unimplemented := []
    run := .running
    envTick := 0 }

end Sys2Proof.Machine
end

