-- ==== Sys2Proof/Machine/Flags.lean ====
section
/-! DEFINITION. The fields of `%ps` (spec/10_state.md R21 to R26) and every flag computation: addition and subtraction
(spec/41_arithmetic_compare.md R141, R142), comparison (R149), rotates and shifts (spec/43_rotate_shift.md R180, R181).
Each is computed on unbounded integers and narrowed at the end. -/

namespace Sys2Proof.Machine

/-! ### Fields of %ps -/

/-- `ps.K`, bit 15: supervisor mode (R22). -/
def State.k (s : State) : Bool := s.ps.getLsbD 15

/-- `ps.IPL`, bits 14 to 8 (R23). -/
def State.ipl (s : State) : BitVec 7 := s.ps.extractLsb' 8 7

/-- `ps.C`, bit 7 (R24). -/
def State.c (s : State) : Bool := s.ps.getLsbD 7

/-- `ps.Z`, bit 6 (R25). -/
def State.z (s : State) : Bool := s.ps.getLsbD 6

/-- `ps.RSV`, bits 5 to 0 (R26). -/
def State.rsv (s : State) : BitVec 6 := s.ps.extractLsb' 0 6

/-- A status word with C and Z replaced and every other bit kept (R26, R27). -/
def psWithFlags (ps : Word) (c z : Bool) : Word :=
  (ps &&& 0xff3f#16) ||| (if c then 0x0080#16 else 0#16) ||| (if z then 0x0040#16 else 0#16)

/-- A status word with K clear and every other bit kept. -/
def psUserMode (ps : Word) : Word := ps &&& 0x7fff#16

/-- `ps.C <- c ; ps.Z <- z`. Flags are always written as a pair (R27). -/
def State.setFlags (s : State) (c z : Bool) : State := { s with ps := psWithFlags s.ps c z }

/-! ### Computed results -/

/-- A 16-bit result with the flags computed from it. -/
structure Flagged where
  value : Word
  c : Bool
  z : Bool
deriving DecidableEq, Repr

/-- AddFlags (R141): C is the carry out of bit 15, Z that the 16-bit result is zero. -/
def addFlags (a b : Word) : Flagged :=
  let sum := a.toNat + b.toNat
  let r := BitVec.ofNat 16 sum
  { value := r, c := decide (sum ≥ 65536), z := r == 0#16 }

/-- SubFlags (R142): C is set on borrow, Z that the 16-bit result is zero. -/
def subFlags (a b : Word) : Flagged :=
  let r := BitVec.ofInt 16 ((a.toNat : Int) - (b.toNat : Int))
  { value := r, c := decide (a.toNat < b.toNat), z := r == 0#16 }

/-- C after `cmp` (R149): the exact order of the two signed values. -/
def cmpLess (a b : Word) : Bool := decide (a.toInt < b.toInt)

/-- Z after `cmp` (R149). -/
def cmpEqual (a b : Word) : Bool := a == b

/-- The result of a rotate or shift of `v` by `n` (R182, R184, R186, R188, R190). -/
def shiftResult (op : Config.ShiftOp) (v : Word) (n : Nibble) : Word :=
  match op with
  | .rol => BitVec.ofNat 16 ((v.toNat <<< n.toNat) ||| (v.toNat >>> (16 - n.toNat)))
  | .ror => BitVec.ofNat 16 ((v.toNat >>> n.toNat) ||| (v.toNat <<< (16 - n.toNat)))
  | .sl => BitVec.ofNat 16 (v.toNat <<< n.toNat)
  | .sr => BitVec.ofInt 16 (v.toInt / (2 ^ n.toNat : Nat))
  | .srl => BitVec.ofNat 16 (v.toNat >>> n.toNat)

/-- A rotate or shift with its flags: Z that the result is zero (R180), C the open function SHIFT_C (R181). -/
def shiftFlags (op : Config.ShiftOp) (v : Word) (n : Nibble) (cOld : Bool) : Flagged :=
  let r := shiftResult op v n
  { value := r, c := Config.shiftC op v n cOld, z := r == 0#16 }

/-- The default instance of SHIFT_C that R181 gives for test runs: the last bit moved out of the word, and 0 when
nothing moves. It is the spec's example of an instance, not a rule of the source; no meaning calls it. -/
def shiftCDefault (op : Config.ShiftOp) (v : Word) (n : Nibble) (_cOld : Bool) : Bool :=
  if n = 0#4 then false
  else
    match op with
    | .sl | .rol => v.getLsbD (16 - n.toNat)
    | .sr | .srl | .ror => v.getLsbD (n.toNat - 1)

end Sys2Proof.Machine
end

