-- ==== Sys2Proof/Machine/Ops.lean ====
section
/-! DEFINITION. The shared operations: registers (spec/00_scope.md 5.2), the memory primitives (spec/20_memory.md R46,
R47, R48), advancing the pc (spec/10_state.md R19), stopping (R6), the privilege check (R292), system registers (R30),
the interrupt call (spec/45_system.md R240), and fetching and decoding an instruction (R5). -/

namespace Sys2Proof.Machine

/-! ### Registers -/

/-- `x[r]` (R11). -/
def State.x (s : State) (r : Reg) : Word := s.regs.get r

/-- `x[r] <- v` (R11). -/
def State.setX (s : State) (r : Reg) (v : Word) : State := { s with regs := s.regs.set r v }

/-- The value of a system register: `s[0]` = pc, `s[1]` = ps, `s[2]` = pt, `s[3]` = tt (spec/00_scope.md 5.2). -/
def State.readSys (s : State) : SysReg → Word
  | .pc => s.pc
  | .ps => s.ps
  | .pt => s.pt
  | .tt => s.tt

/-- A result with flags: the flags are written even when the destination is `%0` (R27). -/
def State.writeFlagged (s : State) (d : Reg) (r : Flagged) : State := (s.setX d r.value).setFlags r.c r.z

/-! ### The pc -/

/-- `pc <- t`. -/
def State.jump (s : State) (t : Word) : State := { s with pc := t }

/-- `pc <- pc + 2`, modulo 65536 (R19). -/
def State.advance (s : State) : State := s.jump (s.pc + 2#16)

/-! ### Stopping -/

/-- `raise` (R6): the step ends in a model stop and nothing is changed. The machine defines no trap that a `raise`
could take (R280), so this is the one shared operation for every error. -/
def raise (f : Fault) : Outcome := .fault f

/-- An instruction whose body may stop: it falls through to the next instruction if it does not. -/
def finish : Except Fault State → Outcome
  | .ok t => .next t.advance
  | .error f => raise f

/-- The first line of the three supervisor-only rules (R292): in user mode a privilege violation, recording the word. -/
def privileged (i : Instr) (s : State) (body : Outcome) : Outcome :=
  if s.k then body else raise (.privilegeViolation (encode i))

/-! ### Memory -/

/-- A byte of a space: `D[a]` for data space and `I[a]` for instruction space (spec/20_memory.md section 3). -/
def State.byte (s : State) (sp : Space) (a : Word) : Byte := (s.mem.view sp).read a.toNat

/-- A byte of a space replaced. -/
def State.setByte (s : State) (sp : Space) (a : Word) (v : Byte) : State :=
  { s with mem := s.mem.put sp ((s.mem.view sp).write a.toNat v) }

/-- MEM_VALID for this machine (R43). -/
def State.valid (s : State) (sp : Space) (a : Word) : Bool := memValid s.absent sp a

/-- The word at an address of a space, the byte at the address its upper half (R44, R45). -/
def State.word (s : State) (sp : Space) (a : Word) : Word := ofBytes (s.byte sp a) (s.byte sp (a + 1#16))

/-- A word stored in a space, its upper half at the address (R44). -/
def State.setWord (s : State) (sp : Space) (a v : Word) : State :=
  (s.setByte sp a (hiByte v)).setByte sp (a + 1#16) (loByte v)

/-- The checks of a word access, in the order of R46 and R47: alignment (R49), then presence of both bytes (R43). -/
def checkWord (s : State) (a : Word) : Except Fault Unit :=
  if isOdd a then .error (.misalignedAccess a)
  else if s.valid .data a && s.valid .data (a + 1#16) then .ok ()
  else .error (.invalidAddress .data a)

/-- The check of a byte access: presence (R43). No alignment (R51). -/
def checkByte (s : State) (a : Word) : Except Fault Unit :=
  if s.valid .data a then .ok () else .error (.invalidAddress .data a)

/-- MemRead(addr, 2) (R46). -/
def memReadWord (s : State) (a : Word) : Except Fault Word :=
  match checkWord s a with
  | .ok _ => .ok (s.word .data a)
  | .error f => .error f

/-- MemRead(addr, 1) (R46). -/
def memReadByte (s : State) (a : Word) : Except Fault Byte :=
  match checkByte s a with
  | .ok _ => .ok (s.byte .data a)
  | .error f => .error f

/-- MemWrite(addr, 2, v) (R47). -/
def memWriteWord (s : State) (a v : Word) : Except Fault State :=
  match checkWord s a with
  | .ok _ => .ok (s.setWord .data a v)
  | .error f => .error f

/-- MemWrite(addr, 1, v) (R47). -/
def memWriteByte (s : State) (a : Word) (v : Byte) : Except Fault State :=
  match checkByte s a with
  | .ok _ => .ok (s.setByte .data a v)
  | .error f => .error f

/-! ### Fetch and decode -/

/-- Steps 1 and 2 of R5: an odd pc stops (R50), then Fetch(pc) (R48). -/
def fetchWord (s : State) : Except Fault Word :=
  if isOdd s.pc then .error (.misalignedFetch s.pc)
  else if s.valid .instr s.pc && s.valid .instr (s.pc + 1#16) then .ok (s.word .instr s.pc)
  else .error (.invalidAddress .instr s.pc)

/-- Steps 1 to 4 of R5: fetch the word at the pc and decode it; an unassigned word stops (R82). -/
def fetchInstr (s : State) : Except Fault Instr :=
  match fetchWord s with
  | .error f => .error f
  | .ok w =>
    match decode w with
    | .ok i => .ok i
    | .error _ => .error (.reservedInstruction w)

/-- A word placed in instruction space by the loader, before a run (R43, R312): no instruction does this when the
spaces are separate (R42). -/
def State.loadInstrWord (s : State) (a v : Word) : State := s.setWord .instr a v

/-! ### The interrupt call -/

/-- The environment implements interrupt number `n` (R240). -/
def State.implements (s : State) (n : BitVec 7) : Bool := !s.unimplemented.contains n

/-- What the stop of an unimplemented interrupt number records (R240). -/
def unimplementedInterrupt (n : BitVec 7) : String := "unimplemented interrupt " ++ toString n.toNat

/-- What the environment sees (R240). -/
def State.envView (s : State) : Config.EnvView :=
  { regs := s.regs, c := s.c, z := s.z, mem := s.mem, pc := s.pc }

/-- The state `Resume(S')` leaves, before the pc advances (R240): the general registers (so `x[0]` stays 0), C, Z and
data memory as the environment says, K = 0; nothing else changes. -/
def State.envResume (s : State) (regs : Regs) (c z : Bool) (data : List Host.Cell) : State :=
  { s with
    regs := regs
    ps := psUserMode (psWithFlags s.ps c z)
    mem := s.mem.put .data (Memory.ofCells data)
    envTick := s.envTick + 1 }

/-- Interrupt call `n`, one the environment implements (R240, R287), the one trap of the machine: the environment answers in one atomic step. `Resume`
goes on after the `int`; `Halt` ends the run with the pc still at the `int` (R300). -/
def State.interruptCall (s : State) (n : BitVec 7) : State :=
  match Config.envCall s.envTick n s.envView with
  | .resume regs c z data => (s.envResume regs c z data).advance
  | .halt info => { s with run := .halted info, envTick := s.envTick + 1 }

end Sys2Proof.Machine
end

