-- ==== Sys2Proof/Machine/Operands.lean ====
section
/-! DEFINITION. What each operand field of an instruction stands for (spec/30_encoding.md R76 to R80) and the addresses
and values formed from operands. -/

namespace Sys2Proof.Machine

/-- The byte offset of format M (R76): the stored field doubled, unsigned, 0 to 30. -/
def wordOffset (off : Nibble) : Word := off.setWidth 16 <<< 1

/-- The effective address of a word load or store (R103, R106), modulo 65536 (R52). -/
def State.wordAddr (s : State) (raddr : Reg) (off : Nibble) : Word := s.x raddr + wordOffset off

/-- The effective address of a byte load or store (R112, R114). -/
def State.byteAddr (s : State) (raddr : Reg) : Word := s.x raddr

/-- The 4-bit immediate of format RI, zero-extended (R78). -/
def immed4 (n : Nibble) : Word := n.setWidth 16

/-- The 8-bit immediate in the upper half, the lower half clear (R77, R110). -/
def upperHalf (i : Byte) : Word := ofBytes i 0x00#8

/-- A word with its lower half replaced and its upper half kept (R77, R112, R115). -/
def replaceLower (w : Word) (l : Byte) : Word := ofBytes (hiByte w) l

/-- The target of a taken short branch (R80): doubled, sign-extended, from the next instruction, modulo 65536. -/
def State.branchTarget (s : State) (d : Byte) : Word := s.pc + 2#16 + (d.signExtend 16 <<< 1)

/-- The target of `jal` (R208): the sum of two registers, modulo 65536. -/
def State.jalTarget (s : State) (raddr roff : Reg) : Word := s.x raddr + s.x roff

/-- The link of `jal` (R208): the address of the next instruction. -/
def State.link (s : State) : Word := s.pc + 2#16

end Sys2Proof.Machine
end

