-- ==== Sys2Proof/Machine/Arithmetic.lean ====
section
/-! DEFINITION. Add, subtract and compare (spec/41_arithmetic_compare.md). -/

namespace Sys2Proof.Machine

/-- `add %rsrc, %rarg, %rdest` (R143). -/
def execAdd (rdest rsrc rarg : Reg) (s : State) : Outcome :=
  finish (.ok (s.writeFlagged rdest (addFlags (s.x rsrc) (s.x rarg))))

/-- `add <immed4>, %rdest` (R145). -/
def execAddi (rdest : Reg) (n : Nibble) (s : State) : Outcome :=
  finish (.ok (s.writeFlagged rdest (addFlags (s.x rdest) (immed4 n))))

/-- `sub %rsrc, %rarg, %rdest`: the first operand is the minuend (R146). -/
def execSub (rdest rsrc rarg : Reg) (s : State) : Outcome :=
  finish (.ok (s.writeFlagged rdest (subFlags (s.x rsrc) (s.x rarg))))

/-- `sub <immed4>, %rdest` (R148). -/
def execSubi (rdest : Reg) (n : Nibble) (s : State) : Outcome :=
  finish (.ok (s.writeFlagged rdest (subFlags (s.x rdest) (immed4 n))))

/-- `cmp %rsrc1, %rsrc2`: signed, exact; no register is written (R149). -/
def execCmp (rsrc1 rsrc2 : Reg) (s : State) : Outcome :=
  finish (.ok (s.setFlags (cmpLess (s.x rsrc1) (s.x rsrc2)) (cmpEqual (s.x rsrc1) (s.x rsrc2))))

end Sys2Proof.Machine
end

