-- ==== Sys2Proof/Machine/BranchJump.lean ====
section
/-! DEFINITION. Short branches and jump-and-link (spec/44_branch_jump.md). No delay slots (R221). -/

namespace Sys2Proof.Machine

/-- The common rule of the six short branches (R200). -/
def branchIf (cond : Bool) (d : Byte) (s : State) : Outcome :=
  .next (if cond then s.jump (s.branchTarget d) else s.advance)

/-- `bl <disp8>`, also `bc`: taken if C is set (R201). -/
def execBl (d : Byte) (s : State) : Outcome := branchIf s.c d s

/-- `be <disp8>`, also `bz`: taken if Z is set (R202). -/
def execBe (d : Byte) (s : State) : Outcome := branchIf s.z d s

/-- `bne <disp8>`, also `bnz`: taken if Z is not set (R203). -/
def execBne (d : Byte) (s : State) : Outcome := branchIf (!s.z) d s

/-- `bge <disp8>`, also `bnc`: taken if C is not set (R204). -/
def execBge (d : Byte) (s : State) : Outcome := branchIf (!s.c) d s

/-- `bg <disp8>`: taken if neither Z nor C is set (R205). -/
def execBg (d : Byte) (s : State) : Outcome := branchIf (!s.z && !s.c) d s

/-- `b <disp8>`: always taken (R206). -/
def execB (d : Byte) (s : State) : Outcome := branchIf true d s

/-- `jal %raddr + %roff, %rret` (R208): both sources are read before the link is written. -/
def execJal (rret roff raddr : Reg) (s : State) : Outcome :=
  .next ((s.setX rret s.link).jump (s.jalTarget raddr roff))

end Sys2Proof.Machine
end

