-- ==== Sys2Proof/Machine/Logic.lean ====
section
/-! DEFINITION. Bitwise logic (spec/42_logic.md). None of the four touches a flag. -/

namespace Sys2Proof.Machine

/-- `and %rsrc, %rarg, %rdest` (R160). -/
def execAnd (rdest rsrc rarg : Reg) (s : State) : Outcome :=
  finish (.ok (s.setX rdest (s.x rsrc &&& s.x rarg)))

/-- `or %rsrc, %rarg, %rdest` (R162). -/
def execOr (rdest rsrc rarg : Reg) (s : State) : Outcome :=
  finish (.ok (s.setX rdest (s.x rsrc ||| s.x rarg)))

/-- `xor %rsrc, %rarg, %rdest` (R164). -/
def execXor (rdest rsrc rarg : Reg) (s : State) : Outcome :=
  finish (.ok (s.setX rdest (s.x rsrc ^^^ s.x rarg)))

/-- `not %rsrc, %rdest` (R166). -/
def execNot (rdest rsrc : Reg) (s : State) : Outcome :=
  finish (.ok (s.setX rdest (~~~(s.x rsrc))))

end Sys2Proof.Machine
end

