-- ==== Sys2Proof/Machine/MoveLoadStore.lean ====
section
/-! DEFINITION. The move, load and store family (spec/40_move_load_store.md). -/

namespace Sys2Proof.Machine

/-- `mov [%raddr + <offset4>], %rdest`, load word (R103). A load into `%0` still performs the access (R54). -/
def execLd (rdest : Reg) (off : Nibble) (raddr : Reg) (s : State) : Outcome :=
  finish ((memReadWord s (s.wordAddr raddr off)).map fun v => s.setX rdest v)

/-- `mov %rsrc, [%raddr + <offset4>]`, store word (R106). -/
def execSt (rsrc : Reg) (off : Nibble) (raddr : Reg) (s : State) : Outcome :=
  finish (memWriteWord s (s.wordAddr raddr off) (s.x rsrc))

/-- `movb [%raddr], %rdest`, load byte into the lower half, the upper half kept (R112). -/
def execLdb (rdest raddr : Reg) (s : State) : Outcome :=
  finish ((memReadByte s (s.byteAddr raddr)).map fun v => s.setX rdest (replaceLower (s.x rdest) v))

/-- `movb %rsrc, [%raddr]`, store the lower half (R114). -/
def execStb (rsrc raddr : Reg) (s : State) : Outcome :=
  finish (memWriteByte s (s.byteAddr raddr) (loByte (s.x rsrc)))

/-- `sethi <symexpr8>, %rdest` (R110). -/
def execSethi (rdest : Reg) (imm8 : Byte) (s : State) : Outcome :=
  finish (.ok (s.setX rdest (upperHalf imm8)))

/-- `movb <symexpr8>, %rdest`, load byte immediate, the upper half kept (R115). -/
def execMovbImm (rdest : Reg) (imm8 : Byte) (s : State) : Outcome :=
  finish (.ok (s.setX rdest (replaceLower (s.x rdest) imm8)))

/-- `mov %ssrc, %rdest`, read a system register, supervisor only (R108). The pc reads as the address of this
instruction. -/
def execLds (rdest : Reg) (ssrc : Nibble) (s : State) : Outcome :=
  privileged (.lds rdest ssrc) s <|
    match SysReg.ofField ssrc with
    | some r => finish (.ok (s.setX rdest (s.readSys r)))
    | none => raise (.unspecified "system register number > 3")

/-- `mov %rsrc, %sdest`, write a system register, supervisor only (R109): the rule gives it no meaning with K = 1. -/
def execSts (rsrc : Reg) (sdest : Nibble) (s : State) : Outcome :=
  privileged (.sts rsrc sdest) s <|
    match SysReg.ofField sdest with
    | some _ => raise (.unspecified "sts in supervisor mode")
    | none => raise (.unspecified "system register number > 3")

end Sys2Proof.Machine
end

