-- ==== Sys2Proof/Machine/RotateShift.lean ====
section
/-! DEFINITION. Rotates and shifts by a constant (spec/43_rotate_shift.md). C is the open function SHIFT_C (R181). -/

namespace Sys2Proof.Machine

/-- The common form of the five (R180): the source shifted into the destination, C and Z written. -/
def shiftInstr (op : Config.ShiftOp) (rdest rsrc : Reg) (n : Nibble) (s : State) : Outcome :=
  finish (.ok (s.writeFlagged rdest (shiftFlags op (s.x rsrc) n s.c)))

/-- `rol %rsrc, <immed4>, %rdest` (R182). -/
def execRol (rdest rsrc : Reg) (n : Nibble) (s : State) : Outcome := shiftInstr .rol rdest rsrc n s

/-- `ror %rsrc, <immed4>, %rdest` (R184). -/
def execRor (rdest rsrc : Reg) (n : Nibble) (s : State) : Outcome := shiftInstr .ror rdest rsrc n s

/-- `sl %rsrc, <immed4>, %rdest`, also `sla` and `sll` (R186). -/
def execSl (rdest rsrc : Reg) (n : Nibble) (s : State) : Outcome := shiftInstr .sl rdest rsrc n s

/-- `sr %rsrc, <immed4>, %rdest`, the arithmetic right shift, also `sra` (R188). -/
def execSr (rdest rsrc : Reg) (n : Nibble) (s : State) : Outcome := shiftInstr .sr rdest rsrc n s

/-- `srl %rsrc, <immed4>, %rdest` (R190). -/
def execSrl (rdest rsrc : Reg) (n : Nibble) (s : State) : Outcome := shiftInstr .srl rdest rsrc n s

end Sys2Proof.Machine
end

