-- ==== Sys2Proof/Machine/System.lean ====
section
/-! DEFINITION. Interrupt call, interrupt return and no operation (spec/45_system.md). -/

namespace Sys2Proof.Machine

/-- `int <immed7>`: interrupt call number `n`, performed by the environment, which stops the run at a number it does not
implement (R240, R281, R287). -/
def execInt (n : BitVec 7) (s : State) : Outcome :=
  if s.implements n then .next (s.interruptCall n) else raise (.unspecified (unimplementedInterrupt n))

/-- `iret`, supervisor only (R241): the rule gives it no meaning with K = 1. -/
def execIret (s : State) : Outcome :=
  privileged .iret s (raise (.unspecified "iret in supervisor mode"))

/-- `nop` (R242). -/
def execNop (s : State) : Outcome := finish (.ok s)

end Sys2Proof.Machine
end

