-- ==== Sys2Proof/Machine/Dispatch.lean ====
section
/-! DEFINITION. One arm per instruction, each one call of its meaning. -/

namespace Sys2Proof.Machine

/-- The meaning of an instruction: step 5 of spec/00_scope.md R5. -/
def exec (i : Instr) (s : State) : Host.Outcome State Fault Refusal :=
  match i with
  | .add rdest rsrc rarg => Sys2Proof.Machine.execAdd rdest rsrc rarg s
  | .sub rdest rsrc rarg => Sys2Proof.Machine.execSub rdest rsrc rarg s
  | .rol rdest rsrc n => Sys2Proof.Machine.execRol rdest rsrc n s
  | .ror rdest rsrc n => Sys2Proof.Machine.execRor rdest rsrc n s
  | .and rdest rsrc rarg => Sys2Proof.Machine.execAnd rdest rsrc rarg s
  | .or rdest rsrc rarg => Sys2Proof.Machine.execOr rdest rsrc rarg s
  | .ld rdest off raddr => Sys2Proof.Machine.execLd rdest off raddr s
  | .sethi rdest imm8 => Sys2Proof.Machine.execSethi rdest imm8 s
  | .sl rdest rsrc n => Sys2Proof.Machine.execSl rdest rsrc n s
  | .sr rdest rsrc n => Sys2Proof.Machine.execSr rdest rsrc n s
  | .srl rdest rsrc n => Sys2Proof.Machine.execSrl rdest rsrc n s
  | .xor rdest rsrc rarg => Sys2Proof.Machine.execXor rdest rsrc rarg s
  | .jal rret roff raddr => Sys2Proof.Machine.execJal rret roff raddr s
  | .st rsrc off raddr => Sys2Proof.Machine.execSt rsrc off raddr s
  | .movbImm rdest imm8 => Sys2Proof.Machine.execMovbImm rdest imm8 s
  | .not rdest rsrc => Sys2Proof.Machine.execNot rdest rsrc s
  | .cmp rsrc1 rsrc2 => Sys2Proof.Machine.execCmp rsrc1 rsrc2 s
  | .ldb rdest raddr => Sys2Proof.Machine.execLdb rdest raddr s
  | .stb rsrc raddr => Sys2Proof.Machine.execStb rsrc raddr s
  | .lds rdest ssrc => Sys2Proof.Machine.execLds rdest ssrc s
  | .sts rsrc sdest => Sys2Proof.Machine.execSts rsrc sdest s
  | .bl d => Sys2Proof.Machine.execBl d s
  | .be d => Sys2Proof.Machine.execBe d s
  | .bne d => Sys2Proof.Machine.execBne d s
  | .bge d => Sys2Proof.Machine.execBge d s
  | .bg d => Sys2Proof.Machine.execBg d s
  | .b d => Sys2Proof.Machine.execB d s
  | .int n => Sys2Proof.Machine.execInt n s
  | .subi rdest n => Sys2Proof.Machine.execSubi rdest n s
  | .addi rdest n => Sys2Proof.Machine.execAddi rdest n s
  | .nop => Sys2Proof.Machine.execNop s
  | .iret => Sys2Proof.Machine.execIret s

end Sys2Proof.Machine
end

