-- ==== Sys2Proof/Machine/Step.lean ====
section
/-! DEFINITION. One step of the machine (spec/00_scope.md R5), several instructions in sequence, and the placing of an
instruction where the next step fetches it. -/

namespace Sys2Proof.Machine

/-- One step (R5): fetch, decode, execute. A run that has ended stays as it is (R300, log 12). -/
def step (s : State) : Host.Outcome State Fault Refusal :=
  match s.run with
  | .halted _ => .next s
  | .running =>
    match fetchInstr s with
    | .ok i => exec i s
    | .error f => .fault f

/-- The instructions of a list one after the other, each from the state the one before leaves: what an alias that
expands to several instructions does (spec/46_assembler.md R250 to R253). -/
def execSeq : List Instr → State → Outcome
  | [], s => .next s
  | i :: is, s =>
    match exec i s with
    | .next t => execSeq is t
    | .fault f => .fault f
    | .refused r => .refused r

/-- `s` with the instruction whose bits are `w` at its pc in instruction space and the run going on, so that the next
step fetches it: it stands for the loading of a program from outside the machine (R311, R312, log 5). -/
def State.withFetchWord (s : State) (nbits w : Nat) : State :=
  { s.loadInstrWord s.pc (BitVec.ofNat 16 (w % 2 ^ nbits)) with run := .running }

end Sys2Proof.Machine
end

