-- ==== Sys2Proof/Machine/Assembler.lean ====
section
/-! DEFINITION. The assembler's side of the instruction set (spec/46_assembler.md and the alias rules of the family
files): register names, operand classes, and what each mnemonic with a list of operands expands to. The machine never
sees any of this, it sees words. What the source leaves out of the grammar is left out here: log 21 to log 24. -/

namespace Sys2Proof.Asm

/-! ### Register names (R12, R255, R30) -/

/-- `%t0` to `%t6`: registers 1 to 7. -/
abbrev t0 : Reg := .r1
abbrev t1 : Reg := .r2
abbrev t2 : Reg := .r3
abbrev t3 : Reg := .r4
abbrev t4 : Reg := .r5
abbrev t5 : Reg := .r6
/-- `%t6`, reserved for assembler use (R265). -/
abbrev t6 : Reg := .r7
/-- `%a0` to `%a3`: registers 8 to 11. -/
abbrev a0 : Reg := .r8
abbrev a1 : Reg := .r9
abbrev a2 : Reg := .r10
abbrev a3 : Reg := .r11
/-- Frame pointer. -/
abbrev fp : Reg := .r12
/-- Stack pointer, a general register (R12, R17). -/
abbrev sp : Reg := .r13
/-- Return address. -/
abbrev ra : Reg := .r14
/-- Global pointer. -/
abbrev gp : Reg := .r15

/-- Every name of a general register (R12). -/
def regNames : List (String × Reg) :=
  [("%0", .r0), ("%1", .r1), ("%2", .r2), ("%3", .r3), ("%4", .r4), ("%5", .r5), ("%6", .r6), ("%7", .r7),
   ("%8", .r8), ("%9", .r9), ("%10", .r10), ("%11", .r11), ("%12", .r12), ("%13", .r13), ("%14", .r14), ("%15", .r15)] ++
  [("%r0", .r0), ("%r1", .r1), ("%r2", .r2), ("%r3", .r3), ("%r4", .r4), ("%r5", .r5), ("%r6", .r6), ("%r7", .r7),
   ("%r8", .r8), ("%r9", .r9), ("%r10", .r10), ("%r11", .r11), ("%r12", .r12), ("%r13", .r13), ("%r14", .r14),
   ("%r15", .r15)] ++
  [("%t0", t0), ("%t1", t1), ("%t2", t2), ("%t3", t3), ("%t4", t4), ("%t5", t5), ("%t6", t6), ("%a0", a0), ("%a1", a1),
   ("%a2", a2), ("%a3", a3), ("%fp", fp), ("%sp", sp), ("%ra", ra), ("%gp", gp)]

/-- Every name of a system register (R30). -/
def sysRegNames : List (String × SysReg) :=
  [("%s0", .pc), ("%pc", .pc), ("%s1", .ps), ("%ps", .ps), ("%s2", .pt), ("%pt", .pt), ("%s3", .tt), ("%tt", .tt)]

/-- The general register of a name. -/
def regOfName (name : String) : Option Reg := regNames.lookup name

/-- The system register of a name. -/
def sysRegOfName (name : String) : Option SysReg := sysRegNames.lookup name

/-- What a function owes the caller about a register, by convention (R16): `saved` it returns to its original state,
`nonSaved` the caller keeps on the stack if it needs it, and for some the source says neither. -/
inductive SaveClass where
  | saved | nonSaved | unclassed
deriving DecidableEq, Repr

/-- The convention of R16: `%t0` to `%t5` saved, `%t6` and `%a0` to `%a3` non-saved. -/
def saveClass : Reg → SaveClass
  | .r1 | .r2 | .r3 | .r4 | .r5 | .r6 => .saved
  | .r7 | .r8 | .r9 | .r10 | .r11 => .nonSaved
  | .r0 | .r12 | .r13 | .r14 | .r15 => .unclassed

/-! ### Values and symbolic expressions (R256 to R259)

Of a negative value R257 does not say what the extraction operators give: C leaves `>>` of one open, and
spec/00_scope.md 5.1 shifts non-negative integers only. The model takes the shift that rounds down and the remainder that
is not negative, the two's complement of any width: DESIGN CHOICE, log 21. -/

/-- `%hi(x)` is `x >> 8` (R257), rounding down for a negative value: DESIGN CHOICE, log 21. -/
def hi (x : Int) : Int := x / 256

/-- `%lo(x)` is `x & 0xff` (R257), 0 to 255 for a negative value too: DESIGN CHOICE, log 21. -/
def lo (x : Int) : Int := x % 256

/-- `%hi16(x)` is `x >> 16` (R257), rounding down for a negative value: DESIGN CHOICE, log 21. -/
def hi16 (x : Int) : Int := x / 65536

/-- `%lo16(x)` is `x & 0xffff` (R257), 0 to 65535 for a negative value too: DESIGN CHOICE, log 21. -/
def lo16 (x : Int) : Int := x % 65536

/-- The C arithmetic operators a `<value>` may use (R256). The source does not list them: DESIGN CHOICE, log 21. -/
inductive BinOp where
  | add | sub | mul | div | mod
deriving DecidableEq, Repr

/-- `<value>` (R256): an arithmetic expression of constants, operators and the four extraction operators. R256 and R257
do not say what an extraction operator inside a `<value>` may take: here it takes a `<value>`, and a `<symexpr>` only as
the operand of a `<symexpr8>` (R263). DESIGN CHOICE, log 21. -/
inductive Value where
  | const (n : Int)
  | neg (v : Value)
  | bin (op : BinOp) (a b : Value)
  | hi (v : Value)
  | lo (v : Value)
  | hi16 (v : Value)
  | lo16 (v : Value)
deriving DecidableEq, Repr

/-- C's operators on unbounded integers; division by zero has no value. DESIGN CHOICE, log 21. -/
def BinOp.eval : BinOp → Int → Int → Option Int
  | .add, a, b => some (a + b)
  | .sub, a, b => some (a - b)
  | .mul, a, b => some (a * b)
  | .div, a, b => if b = 0 then none else some (a.tdiv b)
  | .mod, a, b => if b = 0 then none else some (a.tmod b)

/-- The value of a `<value>`. -/
def Value.eval : Value → Option Int
  | .const n => some n
  | .neg v => v.eval.map fun x => -x
  | .bin op a b =>
    match a.eval, b.eval with
    | some x, some y => op.eval x y
    | _, _ => none
  | .hi v => v.eval.map Asm.hi
  | .lo v => v.eval.map Asm.lo
  | .hi16 v => v.eval.map Asm.hi16
  | .lo16 v => v.eval.map Asm.lo16

/-- `<symexpr>` (R259): a symbol or `.`, plus or minus values. -/
inductive Symexpr where
  | symbol (name : String)
  | dot
  | add (e : Symexpr) (v : Value)
  | sub (e : Symexpr) (v : Value)
deriving DecidableEq, Repr

/-- Where a line stands: the values of the symbols and the address of the line's first word. -/
structure Ctx where
  symbols : List (String × Int)
  here : Word
deriving DecidableEq, Repr

/-- The value of a `<symexpr>`. `.` is the address of the current location (R259, D35, log 24). -/
def Symexpr.eval (c : Ctx) : Symexpr → Option Int
  | .symbol name => c.symbols.lookup name
  | .dot => some c.here.toNat
  | .add e v =>
    match e.eval c, v.eval with
    | some x, some y => some (x + y)
    | _, _ => none
  | .sub e v =>
    match e.eval c, v.eval with
    | some x, some y => some (x - y)
    | _, _ => none

/-! ### Constants (R258) -/

/-- The value of a digit character, if it is one. -/
def digitVal (ch : Char) : Option Nat :=
  if '0' ≤ ch ∧ ch ≤ '9' then some (ch.toNat - '0'.toNat)
  else if 'a' ≤ ch ∧ ch ≤ 'f' then some (ch.toNat - 'a'.toNat + 10)
  else if 'A' ≤ ch ∧ ch ≤ 'F' then some (ch.toNat - 'A'.toNat + 10)
  else none

/-- Digits of a base, most significant first, onto an accumulated number. -/
def digits (base : Nat) : Nat → List Char → Option Nat
  | acc, [] => some acc
  | acc, ch :: cs =>
    match digitVal ch with
    | some d => if d < base then digits base (acc * base + d) cs else none
    | none => none

/-- An unsigned number: `0x` and hexadecimal digits, `0` and octal digits, or decimal digits (R258). -/
def unsignedConst : List Char → Option Nat
  | [] => none
  | ['0', 'x'] => none
  | '0' :: 'x' :: cs => digits 16 0 cs
  | '0' :: cs => digits 8 0 cs
  | cs => digits 10 0 cs

/-- The escape of a character constant, after its backslash (R258): the numeric ones as the source prints them (octal
after a 0, hexadecimal after 0x) and as C writes them, and all of C's letters and signs. R258 ends its examples in
"etc.": PRESUMED for all but those. A numeric escape has any number of digits, one or more, and its value may pass one
byte, where C stops at three octal digits and leaves a wide value to the compiler: DESIGN CHOICE. Log 23. -/
def escape : List Char → Option Int
  | ['n'] => some 10
  | ['t'] => some 9
  | ['r'] => some 13
  | ['a'] => some 7
  | ['b'] => some 8
  | ['f'] => some 12
  | ['v'] => some 11
  | ['\\'] => some 92
  | ['\''] => some 39
  | ['\"'] => some 34
  | ['?'] => some 63
  | [] | ['x'] | ['0', 'x'] => none
  | 'x' :: cs => (digits 16 0 cs).map fun n => (n : Int)
  | '0' :: 'x' :: cs => (digits 16 0 cs).map fun n => (n : Int)
  | cs => (digits 8 0 cs).map fun n => (n : Int)

/-- A constant (R258): a number with an optional sign prefix, or a character constant of one character or escape. A C
constant of several characters, whose value C leaves to the compiler, is not read: DESIGN CHOICE, log 23. -/
def parseConst : List Char → Option Int
  | '-' :: cs => (unsignedConst cs).map fun n => -(n : Int)
  | '+' :: cs => (unsignedConst cs).map fun n => (n : Int)
  | '\'' :: '\\' :: cs => if cs.getLast? = some '\'' then escape cs.dropLast else none
  | ['\'', ch, '\''] => if ch = '\'' then none else some ch.toNat
  | cs => (unsignedConst cs).map fun n => (n : Int)

/-! ### Operands and fields (R260 to R263, R85) -/

/-- An operand as written (R254, R255, R264), told apart by its shape. -/
inductive Operand where
  /-- `%rX`, a general register. -/
  | reg (r : Reg)
  /-- `%sX`, a system register. -/
  | sys (r : SysReg)
  /-- `[%raddr]`. -/
  | mem (r : Reg)
  /-- `[%raddr + <offset4>]`. -/
  | memOff (r : Reg) (off : Value)
  /-- `[<symexpr>]`. -/
  | memSym (e : Symexpr)
  /-- `%raddr + %roff`. -/
  | sum (raddr roff : Reg)
  /-- `<symexpr> + %roff`. -/
  | symSum (e : Symexpr) (roff : Reg)
  /-- `<symexpr>`. -/
  | sym (e : Symexpr)
  /-- `<value>`: an `<immedX>` (R262), or an absolute branch target (R261). -/
  | val (v : Value)
  /-- `%hi(<symexpr>)` as a `<symexpr8>` (R263). -/
  | hiSym (e : Symexpr)
  /-- `%lo(<symexpr>)` as a `<symexpr8>` (R263). -/
  | loSym (e : Symexpr)
deriving DecidableEq, Repr

/-- An operand masked to an 8-bit field (R85, D33). -/
def field8 (x : Int) : Byte := BitVec.ofInt 8 x

/-- An operand masked to a 7-bit field (R85, D33). -/
def field7 (x : Int) : BitVec 7 := BitVec.ofInt 7 x

/-- An operand masked to a 4-bit field (R85, D33). -/
def field4 (x : Int) : Nibble := BitVec.ofInt 4 x

/-- `<offset4>` as stored (R260): bits 4 to 1 of what was written, the others dropped. -/
def offsetField (x : Int) : Nibble := BitVec.ofInt 4 (x / 2)

/-- The distance of a branch at `here` to a target (R261): T - (A + 2) between 16-bit values, so modulo 65536
(spec/00_scope.md 5.1), as the processor adds it (R200). That R261 means this wrap, and that a target wider than 16 bits
counts by its low 16, is the model's reading: DEDUCED, log 22. -/
def dispDelta (here : Word) (target : Int) : Word := BitVec.ofInt 16 target - (here + 2#16)

/-- The field of a branch at `here` to a target (R261): half of the signed distance. The distance must be even and from
-256 to +254; the source does not say what happens otherwise: DESIGN CHOICE, log 22. -/
def dispField (here : Word) (target : Int) : Option Byte :=
  let delta := (dispDelta here target).toInt
  if delta % 2 = 0 ∧ -256 ≤ delta ∧ delta ≤ 254 then some (BitVec.ofInt 8 (delta / 2)) else none

/-- `<symexpr8>` (R263). -/
def Operand.sym8 (c : Ctx) : Operand → Option Byte
  | .hiSym e => (e.eval c).map fun x => field8 (hi x)
  | .loSym e => (e.eval c).map fun x => field8 (lo x)
  | .val v => v.eval.map field8
  | _ => none

/-- The first operand of a constant load: a `<symexpr>` (R100), or any other that names neither a register nor memory,
which R264 says `mov` always loads so. DEDUCED for `ldi`, log 22. -/
def Operand.constant (c : Ctx) : Operand → Option Int
  | .sym e => e.eval c
  | .val v => v.eval
  | .hiSym e => (e.eval c).map hi
  | .loSym e => (e.eval c).map lo
  | _ => none

/-- `<disp8>` (R261): a `<value>` or a `<symexpr>`, the target address. -/
def Operand.disp8 (c : Ctx) : Operand → Option Byte
  | .val v => v.eval.bind (dispField c.here)
  | .sym e => (e.eval c).bind (dispField c.here)
  | _ => none

/-! ### The shapes (R264), one function per alias or actual instruction -/

/-- The two instructions that load a 16-bit value into a register (R100). -/
def loadConst (d : Reg) (x : Int) : List Instr := [.sethi d (field8 (hi x)), .movbImm d (field8 (lo x))]

/-- R100: `<symexpr>, %rdest`, and with `mov` every non-register constant (R264). -/
def constLoad (c : Ctx) : List Operand → Option (List Instr)
  | [o, .reg d] => (o.constant c).map fun x => loadConst d x
  | _ => none

/-- R101: `%rsrc, %rdest`. -/
def regMove : List Operand → Option (List Instr)
  | [.reg s, .reg d] => some [.or d .r0 s]
  | _ => none

/-- R102: `[<symexpr>], %rdest`. -/
def loadAbs (c : Ctx) : List Operand → Option (List Instr)
  | [.memSym e, .reg d] => (e.eval c).map fun x => loadConst t6 x ++ [.ld d 0 t6]
  | _ => none

/-- R103: `[%raddr + <offset4>], %rdest`. -/
def loadWord : List Operand → Option (List Instr)
  | [.memOff a v, .reg d] => v.eval.map fun x => [.ld d (offsetField x) a]
  | _ => none

/-- R104: `[%raddr], %rdest`. -/
def loadPlain : List Operand → Option (List Instr)
  | [.mem a, .reg d] => some [.ld d 0 a]
  | _ => none

/-- R105: `%rsrc, [<symexpr>]`. -/
def storeAbs (c : Ctx) : List Operand → Option (List Instr)
  | [.reg s, .memSym e] => (e.eval c).map fun x => loadConst t6 x ++ [.st s 0 t6]
  | _ => none

/-- R106: `%rsrc, [%raddr + <offset4>]`. -/
def storeWord : List Operand → Option (List Instr)
  | [.reg s, .memOff a v] => v.eval.map fun x => [.st s (offsetField x) a]
  | _ => none

/-- R107: `%rsrc, [%raddr]`. -/
def storePlain : List Operand → Option (List Instr)
  | [.reg s, .mem a] => some [.st s 0 a]
  | _ => none

/-- R108: `%ssrc, %rdest`. -/
def readSys : List Operand → Option (List Instr)
  | [.sys s, .reg d] => some [.lds d s.field]
  | _ => none

/-- R109: `%rsrc, %sdest`. -/
def writeSys : List Operand → Option (List Instr)
  | [.reg s, .sys d] => some [.sts s d.field]
  | _ => none

/-- R110: `<symexpr8>, %rdest`. -/
def sethiShape (c : Ctx) : List Operand → Option (List Instr)
  | [o, .reg d] => (o.sym8 c).map fun i => [.sethi d i]
  | _ => none

/-- R111: `[<symexpr>], %rdest`. -/
def loadByteAbs (c : Ctx) : List Operand → Option (List Instr)
  | [.memSym e, .reg d] => (e.eval c).map fun x => loadConst t6 x ++ [.ldb d t6]
  | _ => none

/-- R112: `[%raddr], %rdest`. -/
def loadByte : List Operand → Option (List Instr)
  | [.mem a, .reg d] => some [.ldb d a]
  | _ => none

/-- R113: `%rsrc, [<symexpr>]`. -/
def storeByteAbs (c : Ctx) : List Operand → Option (List Instr)
  | [.reg s, .memSym e] => (e.eval c).map fun x => loadConst t6 x ++ [.stb s t6]
  | _ => none

/-- R114: `%rsrc, [%raddr]`. -/
def storeByte : List Operand → Option (List Instr)
  | [.reg s, .mem a] => some [.stb s a]
  | _ => none

/-- R115: `<symexpr8>, %rdest`. -/
def byteImm (c : Ctx) : List Operand → Option (List Instr)
  | [o, .reg d] => (o.sym8 c).map fun i => [.movbImm d i]
  | _ => none

/-- Three registers, or two with the destination also the first source (R143, R144 and the like). -/
def threeReg (mk : Reg → Reg → Reg → Instr) : List Operand → Option (List Instr)
  | [.reg s, .reg a, .reg d] => some [mk d s a]
  | [.reg a, .reg d] => some [mk d d a]
  | _ => none

/-- `<immed4>, %rdest` (R145, R148). -/
def immReg (mk : Reg → Nibble → Instr) : List Operand → Option (List Instr)
  | [.val v, .reg d] => v.eval.map fun x => [mk d (field4 x)]
  | _ => none

/-- `%rsrc, <immed4>, %rdest`, or `<immed4>, %rdest` with the destination also the source (R182, R183 and the like). -/
def shiftShape (mk : Reg → Reg → Nibble → Instr) : List Operand → Option (List Instr)
  | [.reg s, .val v, .reg d] => v.eval.map fun x => [mk d s (field4 x)]
  | [.val v, .reg d] => v.eval.map fun x => [mk d d (field4 x)]
  | _ => none

/-- `%rsrc1, %rsrc2` (R149). -/
def cmpShape : List Operand → Option (List Instr)
  | [.reg a, .reg b] => some [.cmp a b]
  | _ => none

/-- `%rsrc1, %rsrc2`, unsigned (R150). -/
def cmplShape : List Operand → Option (List Instr)
  | [.reg a, .reg b] => some [.sub .r0 a b]
  | _ => none

/-- `%rsrc, %rdest` or `%rdest` (R166, R167). -/
def notShape : List Operand → Option (List Instr)
  | [.reg s, .reg d] => some [.not d s]
  | [.reg d] => some [.not d d]
  | _ => none

/-- `<disp8>` (R201 to R206). -/
def branchShape (c : Ctx) (mk : Byte → Instr) : List Operand → Option (List Instr)
  | [o] => (o.disp8 c).map fun d => [mk d]
  | _ => none

/-- The four forms of a jump target with the link going to `rret` (R208 to R219). -/
def jumpTo (c : Ctx) (rret : Reg) : Operand → Option (List Instr)
  | .sum a o => some [.jal rret o a]
  | .symSum e o => (e.eval c).map fun x => loadConst t6 x ++ [.jal rret o t6]
  | .sym e => (e.eval c).map fun x => loadConst t6 x ++ [.jal rret .r0 t6]
  | .reg a => some [.jal rret .r0 a]
  | _ => none

/-- `jal <target>, %rret` (R208 to R211). -/
def jalShape (c : Ctx) : List Operand → Option (List Instr)
  | [o, .reg r] => jumpTo c r o
  | _ => none

/-- `j <target>` and `call <target>`: the link to `%0` or `%ra` (R212 to R219). -/
def jumpShape (c : Ctx) (rret : Reg) : List Operand → Option (List Instr)
  | [o] => jumpTo c rret o
  | _ => none

/-- `<immed7>` (R240). -/
def intShape : List Operand → Option (List Instr)
  | [.val v] => v.eval.map fun x => [.int (field7 x)]
  | _ => none

/-- No operands (R220, R241, R242). -/
def noOperands (i : Instr) : List Operand → Option (List Instr)
  | [] => some [i]
  | _ => none

/-- `push` and `push %rsrc` (R250, R251). -/
def pushShape : List Operand → Option (List Instr)
  | [] => some [.subi sp 2]
  | [.reg s] => some [.subi sp 2, .st s 1 sp]
  | _ => none

/-- `pop` and `pop %rdest` (R252, R253). -/
def popShape : List Operand → Option (List Instr)
  | [] => some [.addi sp 2]
  | [.reg d] => some [.ld d 1 sp, .addi sp 2]
  | _ => none

/-! ### Mnemonics (R264, R266) -/

/-- The 48 mnemonics. -/
inductive Mnemonic where
  | mov | ldi | ld | st | lds | sts | sethi | movb | ldb | stb | ldbi
  | add | addi | sub | subi | cmp | cmpl
  | and | or | xor | not
  | rol | ror | sl | sla | sll | sr | sra | srl
  | bl | bc | be | bz | bne | bnz | bge | bnc | bg | b
  | jal | j | call | ret
  | int | iret | nop
  | push | pop
deriving DecidableEq, Repr

/-- Every mnemonic as written, lower case (R254, R266). -/
def mnemonicNames : List (String × Mnemonic) :=
  [("mov", .mov), ("ldi", .ldi), ("ld", .ld), ("st", .st), ("lds", .lds), ("sts", .sts), ("sethi", .sethi), ("movb", .movb)] ++
  [("ldb", .ldb), ("stb", .stb), ("ldbi", .ldbi), ("add", .add), ("addi", .addi), ("sub", .sub), ("subi", .subi), ("cmp", .cmp)] ++
  [("cmpl", .cmpl), ("and", .and), ("or", .or), ("xor", .xor), ("not", .not), ("rol", .rol), ("ror", .ror), ("sl", .sl)] ++
  [("sla", .sla), ("sll", .sll), ("sr", .sr), ("sra", .sra), ("srl", .srl), ("bl", .bl), ("bc", .bc), ("be", .be)] ++
  [("bz", .bz), ("bne", .bne), ("bnz", .bnz), ("bge", .bge), ("bnc", .bnc), ("bg", .bg), ("b", .b), ("jal", .jal)] ++
  [("j", .j), ("call", .call), ("ret", .ret), ("int", .int), ("iret", .iret), ("nop", .nop), ("push", .push), ("pop", .pop)]

/-- The mnemonic of a name. -/
def mnemonicOfName (name : String) : Option Mnemonic := mnemonicNames.lookup name

/-- A register operand as written: a general register and a system register are told apart by name (R255, R264). -/
def regOperand (name : String) : Option Operand :=
  match regOfName name with
  | some r => some (.reg r)
  | none => (sysRegOfName name).map fun r => .sys r

/-- What the assembler emits for a mnemonic and its operands (R264), or nothing where the source lists no such form
(log 22). -/
def assemble (c : Ctx) (m : Mnemonic) (ops : List Operand) : Option (List Instr) :=
  match m with
  | .mov =>
    constLoad c ops <|> regMove ops <|> loadAbs c ops <|> loadWord ops <|> loadPlain ops <|> storeAbs c ops <|>
      storeWord ops <|> storePlain ops <|> readSys ops <|> writeSys ops
  | .ldi => constLoad c ops
  | .ld => loadAbs c ops <|> loadWord ops <|> readSys ops
  | .st => regMove ops <|> storeAbs c ops <|> storeWord ops <|> writeSys ops
  | .lds => readSys ops
  | .sts => writeSys ops
  | .sethi => sethiShape c ops
  | .movb => loadByteAbs c ops <|> loadByte ops <|> storeByteAbs c ops <|> storeByte ops <|> byteImm c ops
  | .ldb => loadByteAbs c ops <|> loadByte ops
  | .stb => storeByteAbs c ops <|> storeByte ops
  | .ldbi => byteImm c ops
  | .add => threeReg .add ops <|> immReg .addi ops
  | .addi => immReg .addi ops
  | .sub => threeReg .sub ops <|> immReg .subi ops
  | .subi => immReg .subi ops
  | .cmp => cmpShape ops
  | .cmpl => cmplShape ops
  | .and => threeReg .and ops
  | .or => threeReg .or ops
  | .xor => threeReg .xor ops
  | .not => notShape ops
  | .rol => shiftShape .rol ops
  | .ror => shiftShape .ror ops
  | .sl | .sla | .sll => shiftShape .sl ops
  | .sr | .sra => shiftShape .sr ops
  | .srl => shiftShape .srl ops
  | .bl | .bc => branchShape c .bl ops
  | .be | .bz => branchShape c .be ops
  | .bne | .bnz => branchShape c .bne ops
  | .bge | .bnc => branchShape c .bge ops
  | .bg => branchShape c .bg ops
  | .b => branchShape c .b ops
  | .jal => jalShape c ops
  | .j => jumpShape c .r0 ops
  | .call => jumpShape c ra ops
  | .ret => noOperands (.jal .r0 .r0 ra) ops
  | .int => intShape ops
  | .iret => noOperands .iret ops
  | .nop => noOperands .nop ops
  | .push => pushShape ops
  | .pop => popShape ops

/-- The words the assembler emits. -/
def assembleWords (c : Ctx) (m : Mnemonic) (ops : List Operand) : Option (List Word) :=
  (assemble c m ops).map fun is => is.map encode

end Sys2Proof.Asm
end

