-- ==== Sys2Proof/Safety.lean ====
section
/-! DEFINITION. What counts as a safe run (spec/60_exceptions.md R280, R300), what a launch state is
(spec/70_reset_and_hazards.md R311), and the words statements use for what an instruction leaves unchanged. -/

namespace Sys2Proof.Safety

open Sys2Proof.Machine

/-- `k` steps, stopping at the first stop. -/
def steps : Nat → State → Outcome
  | 0, s => .next s
  | k + 1, s =>
    match step s with
    | .next t => steps k t
    | .fault f => .fault f
    | .refused r => .refused r

/-- No model stop within the first `k` steps (R280: a claim about a program must include this). -/
def NoStopWithin (k : Nat) (s : State) : Prop := ∃ t, steps k s = .next t

/-- The run from `s` ends normally in `t` with `info` (R300 (a)). -/
def EndsNormally (s t : State) (info : Nat) : Prop := ∃ k, steps k s = .next t ∧ t.run = .halted info

/-- A launch state (R311, R34): the pc even, user mode, the run going on. Everything else is arbitrary. -/
def IsLaunch (s : State) : Prop := isOdd s.pc = false ∧ s.k = false ∧ s.run = .running

/-! ### Frames -/

/-- Every register other than `d` reads as before (and `%0` reads zero, so `d = r0` says that none changed). -/
def RegsKeptBut (d : Reg) (s t : State) : Prop := ∀ r, r ≠ d → t.x r = s.x r

/-- Every register reads as before. -/
def RegsKept (s t : State) : Prop := ∀ r, t.x r = s.x r

/-- Every bit of `%ps` other than C and Z is as before (R26). -/
def PsKeptButFlags (s t : State) : Prop := ∀ i, i ≠ 7 → i ≠ 6 → t.ps.getLsbD i = s.ps.getLsbD i

/-- Every byte of both spaces reads as before. -/
def MemKept (s t : State) : Prop := ∀ sp a, t.byte sp a = s.byte sp a

/-- The system registers no user-mode instruction reaches (R30), the configuration (R33), the run and the count of
interrupt calls are as before. -/
def RestKept (s t : State) : Prop :=
  t.pt = s.pt ∧ t.tt = s.tt ∧ t.mem.isUnified = s.mem.isUnified ∧ t.absent = s.absent ∧
    t.unimplemented = s.unimplemented ∧ t.run = s.run ∧ t.envTick = s.envTick

/-- Only register `d` and the pc may differ. -/
def RegOnly (d : Reg) (s t : State) : Prop := RegsKeptBut d s t ∧ t.ps = s.ps ∧ MemKept s t ∧ RestKept s t

/-- Only register `d`, C, Z and the pc may differ. -/
def RegAndFlags (d : Reg) (s t : State) : Prop := RegsKeptBut d s t ∧ PsKeptButFlags s t ∧ MemKept s t ∧ RestKept s t

/-- Only C, Z and the pc may differ. -/
def FlagsOnly (s t : State) : Prop := RegsKept s t ∧ PsKeptButFlags s t ∧ MemKept s t ∧ RestKept s t

/-- Only the pc may differ. -/
def PcOnly (s t : State) : Prop := RegsKept s t ∧ t.ps = s.ps ∧ MemKept s t ∧ RestKept s t

/-- Only the pc and the bytes of memory at the addresses of `stored` may differ. Where the spaces are separate no byte of
instruction space does (R42); where they are one, a fetch sees every byte as a load does, the stored ones too (R41, R58,
R61). -/
def StoreOnly (stored : List Word) (s t : State) : Prop :=
  RegsKept s t ∧ t.ps = s.ps ∧ (∀ sp b, b ∉ stored → t.byte sp b = s.byte sp b) ∧
    (s.mem.isUnified = false → ∀ b, t.byte .instr b = s.byte .instr b) ∧
    (s.mem.isUnified = true → ∀ b, t.byte .instr b = t.byte .data b) ∧ RestKept s t

/-! ### Classes of instructions -/

/-- The instructions R281 lists as unable to stop once fetched. -/
def neverStops : Instr → Bool
  | .add _ _ _ | .addi _ _ | .sub _ _ _ | .subi _ _ | .cmp _ _ | .and _ _ _ | .or _ _ _ | .xor _ _ _ | .not _ _
  | .rol _ _ _ | .ror _ _ _ | .sl _ _ _ | .sr _ _ _ | .srl _ _ _ | .sethi _ _ | .movbImm _ _
  | .bl _ | .be _ | .bne _ | .bge _ | .bg _ | .b _ | .jal _ _ _ | .nop => true
  | .ld _ _ _ | .st _ _ _ | .ldb _ _ | .stb _ _ | .lds _ _ | .sts _ _ | .int _ | .iret => false

/-- The instructions that write C and Z by their own rule (R27), and `int`, where the environment decides. -/
def mayWriteFlags : Instr → Bool
  | .add _ _ _ | .addi _ _ | .sub _ _ _ | .subi _ _ | .cmp _ _
  | .rol _ _ _ | .ror _ _ _ | .sl _ _ _ | .sr _ _ _ | .srl _ _ _ | .int _ => true
  | .and _ _ _ | .or _ _ _ | .xor _ _ _ | .not _ _ | .sethi _ _ | .movbImm _ _ | .ld _ _ _ | .st _ _ _ | .ldb _ _
  | .stb _ _ | .lds _ _ | .sts _ _ | .bl _ | .be _ | .bne _ | .bge _ | .bg _ | .b _ | .jal _ _ _ | .nop | .iret => false

/-- The instructions that write memory (R42), and `int`, where the environment may. -/
def mayWriteMemory : Instr → Bool
  | .st _ _ _ | .stb _ _ | .int _ => true
  | .add _ _ _ | .addi _ _ | .sub _ _ _ | .subi _ _ | .cmp _ _ | .and _ _ _ | .or _ _ _ | .xor _ _ _ | .not _ _
  | .rol _ _ _ | .ror _ _ _ | .sl _ _ _ | .sr _ _ _ | .srl _ _ _ | .sethi _ _ | .movbImm _ _ | .ld _ _ _ | .ldb _ _
  | .lds _ _ | .sts _ _ | .bl _ | .be _ | .bne _ | .bge _ | .bg _ | .b _ | .jal _ _ _ | .nop | .iret => false

/-- The supervisor-only instructions (R292). -/
def supervisorOnly : Instr → Bool
  | .lds _ _ | .sts _ _ | .iret => true
  | .add _ _ _ | .addi _ _ | .sub _ _ _ | .subi _ _ | .cmp _ _ | .and _ _ _ | .or _ _ _ | .xor _ _ _ | .not _ _
  | .rol _ _ _ | .ror _ _ _ | .sl _ _ _ | .sr _ _ _ | .srl _ _ _ | .sethi _ _ | .movbImm _ _ | .ld _ _ _ | .st _ _ _
  | .ldb _ _ | .stb _ _ | .bl _ | .be _ | .bne _ | .bge _ | .bg _ | .b _ | .jal _ _ _ | .int _ | .nop => false

end Sys2Proof.Safety
end

