-- ==== Sys2Proof/Certificates/Slice0/Obligations.lean ====
section
/-! DEFINITION. The statements for the provers. Each cites the rules of spec/ it formalises. Where a clause rests on one
of the spec's own decisions (spec/92_eei_decisions.md), the docstring names the decision, and where it rests on a
choice of the model it names the log entry. -/

open Sys2Proof Sys2Proof.Machine Sys2Proof.Safety Sys2Proof.Asm

/-! ### Encoding -/

/-- Decoding the word of any instruction gives the instruction back, with every operand at every value its field holds
(R71 to R84), the words of instructions that are not well-formed (R75) included. -/
def Obligations.DecodeOfEncodeIsTheInstruction : Prop := ∀ i : Instr, decode (encode i) = .ok i

/-- A word that decodes is the word of the instruction it decodes to: no two words are the same instruction (R84). -/
def Obligations.EncodeOfDecodedWordIsTheWord : Prop := ∀ (w : Word) (i : Instr), decode w = .ok i → encode i = w

/-- The decoder refuses exactly the unassigned words, by name (R82; that they are refused is decision D23). -/
def Obligations.UnassignedWordsAreExactlyTheThreeRanges : Prop :=
  ∀ w : Word, decode w = .error (.reservedInstruction w) ↔
    (0xfc80 ≤ w.toNat ∧ w.toNat ≤ 0xfcff) ∨ (0xff00 ≤ w.toNat ∧ w.toNat ≤ 0xffef) ∨
      (0xfff1 ≤ w.toNat ∧ w.toNat ≤ 0xfffe)

/-- A word decodes exactly when it fits a row of the opcode table, it fits no second one, and it decodes to an
instruction of that row (R84). -/
def Obligations.DecodeSelectsTheOneFittingRow : Prop :=
  ∀ w : Word,
    (∀ r ∈ opcodeTable, ∀ q ∈ opcodeTable, r.fits w = true → q.fits w = true → r = q) ∧
    (∀ i, decode w = .ok i → rowOf i ∈ opcodeTable ∧ (rowOf i).fits w = true) ∧
    (∀ r ∈ opcodeTable, r.fits w = true → ∃ i, decode w = .ok i ∧ rowOf i = r)

/-- The primary opcode map (R72): the source's expression for each of its fifteen rows is a word that decodes to the
row's instruction, and bits 15 to 12 all ones select the secondary map. -/
def Obligations.PrimaryMapDecodes : Prop :=
  (∀ (d a b : Reg) (n : Nibble) (i : Byte),
    let rd : Word := d.field.setWidth 16 <<< 8
    let rs : Word := a.field.setWidth 16 <<< 4
    let rg : Word := b.field.setWidth 16
    let n1 : Word := n.setWidth 16 <<< 4
    let n0 : Word := n.setWidth 16
    let im : Word := i.setWidth 16
    decode (0x0000#16 ||| rd ||| rs ||| rg) = .ok (.add d a b) ∧
    decode (0x1000#16 ||| rd ||| rs ||| rg) = .ok (.sub d a b) ∧
    decode (0x2000#16 ||| rd ||| rs ||| n0) = .ok (.rol d a n) ∧
    decode (0x3000#16 ||| rd ||| rs ||| n0) = .ok (.ror d a n) ∧
    decode (0x4000#16 ||| rd ||| rs ||| rg) = .ok (.and d a b) ∧
    decode (0x5000#16 ||| rd ||| rs ||| rg) = .ok (.or d a b) ∧
    decode (0x6000#16 ||| rd ||| n1 ||| rg) = .ok (.ld d n b) ∧
    decode (0x7000#16 ||| rd ||| im) = .ok (.sethi d i) ∧
    decode (0x8000#16 ||| rd ||| rs ||| n0) = .ok (.sl d a n) ∧
    decode (0x9000#16 ||| rd ||| rs ||| n0) = .ok (.sr d a n) ∧
    decode (0xa000#16 ||| rd ||| rs ||| n0) = .ok (.srl d a n) ∧
    decode (0xb000#16 ||| rd ||| rs ||| rg) = .ok (.xor d a b) ∧
    decode (0xc000#16 ||| rd ||| rs ||| rg) = .ok (.jal d a b) ∧
    decode (0xd000#16 ||| rd ||| n1 ||| rg) = .ok (.st d n b) ∧
    decode (0xe000#16 ||| rd ||| im) = .ok (.movbImm d i)) ∧
  ∀ w : Word, w >>> 12 = 0xf#16 → decode w = decodeSecondary w

/-- The secondary opcode map (R73): the source's expression for each of its fifteen rows is a word that decodes to the
row's instruction; in these the destination is in bits 7 to 4. Words with bits 15 to 8 all ones are left to the
tertiary map: only its two words decode, 0xfff0 as `nop` and 0xffff as `iret`. -/
def Obligations.SecondaryMapDecodes : Prop :=
  (∀ (b c : Reg) (n : Nibble) (i : Byte) (m : BitVec 7),
    let rb : Word := b.field.setWidth 16 <<< 4
    let rc : Word := c.field.setWidth 16
    let n0 : Word := n.setWidth 16
    let im : Word := i.setWidth 16
    decode (0xf000#16 ||| rb ||| rc) = .ok (.not b c) ∧
    decode (0xf100#16 ||| rb ||| rc) = .ok (.cmp b c) ∧
    decode (0xf200#16 ||| rb ||| rc) = .ok (.ldb b c) ∧
    decode (0xf300#16 ||| rb ||| rc) = .ok (.stb b c) ∧
    decode (0xf400#16 ||| rb ||| n0) = .ok (.lds b n) ∧
    decode (0xf500#16 ||| rb ||| n0) = .ok (.sts b n) ∧
    decode (0xf600#16 ||| im) = .ok (.bl i) ∧
    decode (0xf700#16 ||| im) = .ok (.be i) ∧
    decode (0xf800#16 ||| im) = .ok (.bne i) ∧
    decode (0xf900#16 ||| im) = .ok (.bge i) ∧
    decode (0xfa00#16 ||| im) = .ok (.bg i) ∧
    decode (0xfb00#16 ||| im) = .ok (.b i) ∧
    decode (0xfc00#16 ||| m.setWidth 16) = .ok (.int m) ∧
    decode (0xfd00#16 ||| rb ||| n0) = .ok (.subi b n) ∧
    decode (0xfe00#16 ||| rb ||| n0) = .ok (.addi b n)) ∧
  ∀ (w : Word) (i : Instr), w >>> 8 = 0xff#16 → decode w = .ok i →
    (w = 0xfff0#16 ∧ i = .nop) ∨ (w = 0xffff#16 ∧ i = .iret)

/-- The tertiary map (R74): of the words 0xff00 to 0xffff exactly two are assigned, 0xfff0 to `nop` and 0xffff to
`iret`. -/
def Obligations.TertiaryMapHasExactlyTwoWords : Prop :=
  ∀ w : Word, 0xff00 ≤ w.toNat →
    (w = 0xfff0#16 → decode w = .ok .nop) ∧ (w = 0xffff#16 → decode w = .ok .iret) ∧
    (w ≠ 0xfff0#16 → w ≠ 0xffff#16 → decode w = .error (.reservedInstruction w))

/-- Nine words written out from the encodings of spec/30_encoding.md, one for each format, decode to what they stand for,
and the unassigned word 0xfc80 (`int` with bit 7 set) is refused by name (R82; that it is refused is decision D23, log 19). -/
def Obligations.SampleWordsDecode : Prop :=
  decode 0x0312#16 = .ok (.add .r3 .r1 .r2) ∧ decode 0x2214#16 = .ok (.rol .r2 .r1 4#4) ∧
  decode 0x6223#16 = .ok (.ld .r2 2#4 .r3) ∧ decode 0x7112#16 = .ok (.sethi .r1 0x12#8) ∧
  decode 0xf021#16 = .ok (.not .r2 .r1) ∧ decode 0xfed2#16 = .ok (.addi .r13 2#4) ∧
  decode 0xf7fb#16 = .ok (.be 0xfb#8) ∧ decode 0xfc7f#16 = .ok (.int 127#7) ∧ decode 0xfff0#16 = .ok .nop ∧
  decode 0xfc80#16 = .error (.reservedInstruction 0xfc80#16)

/-! ### The step -/

/-- When the run goes on, the pc is even, the two bytes there exist and decode to `i`, the step is `exec i` of the same
state: nothing is added around it, the instruction itself moves the pc (R5). -/
def Obligations.StepRunsTheDecodedInstruction : Prop :=
  ∀ (s : State) (i : Instr), s.run = .running → isOdd s.pc = false → s.valid .instr s.pc = true →
    s.valid .instr (s.pc + 1#16) = true →
    decode (ofBytes (s.byte .instr s.pc) (s.byte .instr (s.pc + 1#16))) = .ok i → step s = exec i s

/-- Where a step stops before its instruction runs, and in which order the reasons are tried (R5, R285; decisions D5,
D7, D23, D31). A run that has ended stays as it is (the model's choice, log 12). -/
def Obligations.StepStopsBeforeExecutionInOrder : Prop :=
  ∀ s : State,
    (∀ info, s.run = .halted info → step s = .next s) ∧
    (s.run = .running →
      (isOdd s.pc = true → step s = .fault (.misalignedFetch s.pc)) ∧
      (isOdd s.pc = false → (s.valid .instr s.pc && s.valid .instr (s.pc + 1#16)) = false →
        step s = .fault (.invalidAddress .instr s.pc)) ∧
      (isOdd s.pc = false → (s.valid .instr s.pc && s.valid .instr (s.pc + 1#16)) = true →
        (∀ i, decode (s.word .instr s.pc) ≠ .ok i) →
          step s = .fault (.reservedInstruction (s.word .instr s.pc))))

/-- The reset state is a launch state (R311: pc even, K = 0), its memory is canonical and register 0 reads zero (R34).
The other reset values are the model's choices (log 1 to 6, log 8) and nothing is stated of them. -/
def Obligations.ResetIsALaunchState : Prop :=
  IsLaunch State.reset ∧ State.reset.mem.wf ∧ State.reset.x .r0 = 0#16

/-! ### Invariants of every step -/

/-- Every step keeps every memory array in its canonical form: addresses strictly rising and below 65536, no entry equal
to what an unlisted address reads as. -/
def Obligations.StepKeepsMemoryCanonical : Prop :=
  ∀ s t : State, s.mem.wf → step s = .next t → t.mem.wf

/-- In user mode every step stays in user mode (R22, R293; decision D1). -/
def Obligations.StepKeepsUserMode : Prop :=
  ∀ s t : State, s.k = false → step s = .next t → t.k = false

/-- No step changes `%pt`, `%tt`, the interrupt priority and reserved bits of `%ps` (R23, R26, R28, R29; decision D32),
UNIFIED, MEM_VALID (R33) or which interrupt numbers are implemented (log 13). -/
def Obligations.StepKeepsUnreachableStateAndConfiguration : Prop :=
  ∀ s t : State, step s = .next t →
    t.pt = s.pt ∧ t.tt = s.tt ∧ t.ipl = s.ipl ∧ t.rsv = s.rsv ∧ t.mem.isUnified = s.mem.isUnified ∧ t.absent = s.absent ∧
      t.unimplemented = s.unimplemented

/-- With separate spaces no step changes a byte of instruction space (R33, R42, R61; decision D4). -/
def Obligations.SplitInstructionSpaceNeverChanges : Prop :=
  ∀ s t : State, s.mem.isUnified = false → step s = .next t → ∀ a, t.byte .instr a = s.byte .instr a

/-- An even pc stays even under every instruction but `jal` (R20; that the pc wraps is decision D8). -/
def Obligations.EvenPcStaysEvenExceptUnderJal : Prop :=
  ∀ (i : Instr) (s t : State), isOdd s.pc = false → (∀ r o a, i ≠ .jal r o a) → exec i s = .next t → isOdd t.pc = false

/-- Only `int` reaches the environment: under every other instruction no call is made and the run does not end (R296,
R300; decisions D21, D29). -/
def Obligations.OnlyIntReachesTheEnvironment : Prop :=
  ∀ (i : Instr) (s t : State), (∀ n, i ≠ .int n) → exec i s = .next t → t.run = s.run ∧ t.envTick = s.envTick

/-- Only word store, byte store and `int` change memory (R42; decision D4). -/
def Obligations.OnlyStoresAndIntChangeMemory : Prop :=
  ∀ (i : Instr) (s t : State), mayWriteMemory i = false → exec i s = .next t → MemKept s t

/-- An instruction whose entry does not say that it affects the flags leaves all of `%ps` unchanged (R27; decision
D16). -/
def Obligations.OtherInstructionsLeavePsUnchanged : Prop :=
  ∀ (i : Instr) (s t : State), mayWriteFlags i = false → exec i s = .next t → t.ps = s.ps

/-- The instructions that can never stop (R281): each of them answers a next state from every state. -/
def Obligations.ListedInstructionsNeverStop : Prop :=
  ∀ (i : Instr) (s : State), neverStops i = true → ∃ t, exec i s = .next t

/-- General register 0 reads 0x0000, in every state and in the state after any step, and a write to it has no effect,
while the other effects of the instruction that writes it still happen: the flags of a result, the jump of `jal` (R11;
that the flags are written is decision D17). -/
def Obligations.RegisterZeroIsHardwired : Prop :=
  ∀ s : State, s.x .r0 = 0x0000#16 ∧ (∀ v, s.setX .r0 v = s) ∧ (∀ r, s.writeFlagged .r0 r = s.setFlags r.c r.z) ∧
    (∀ o a, exec (.jal .r0 o a) s = .next (s.jump (s.jalTarget a o))) ∧ ∀ t, step s = .next t → t.x .r0 = 0x0000#16

/-! ### Memory -/

/-- A word store that passes its checks (R47) puts the upper half at the address and the lower half at the next (R44),
a word load then reads the word back and byte loads its halves (R46, R58), and no other byte of either space changes
(decisions D5, D6). Where the two spaces are one, instruction space reads as data space does, the stored word included
(R41, R61; decision D27). -/
def Obligations.StoredWordReadsBack : Prop :=
  ∀ (s t : State) (a v : Word), memWriteWord s a v = .ok t →
    memReadWord t a = .ok v ∧ memReadByte t a = .ok (hiByte v) ∧ memReadByte t (a + 1#16) = .ok (loByte v) ∧
    StoreOnly [a, a + 1#16] s t

/-! ### Move, load, store -/

/-- `ld` (R103; decisions D6, D9): at an even effective address whose bytes exist, the destination receives the
big-endian word there; the base is read before the destination is written; nothing else changes but the pc. A load to
`%0` is performed and discarded (decision D34). -/
def Obligations.LdLoadsTheBigEndianWord : Prop :=
  ∀ (d a : Reg) (off : Nibble) (s : State),
    let ea := s.wordAddr a off
    isOdd ea = false → s.valid .data ea = true → s.valid .data (ea + 1#16) = true →
      ∃ t, exec (.ld d off a) s = .next t ∧
        ea.toNat = ((s.x a).toNat + 2 * off.toNat) % 65536 ∧
        (t.x d).toNat =
          (if d = .r0 then 0 else (s.byte .data ea).toNat * 256 + (s.byte .data (ea + 1#16)).toNat) ∧
        t.pc = s.pc + 2#16 ∧ RegOnly d s t

/-- `st` (R106; decisions D6, D9): at an even effective address whose bytes exist, the source's upper half is stored at
the address and its lower half at the next; no other byte, no register and no flag changes; where the two spaces are one
a fetch sees the stored word (R41, R61; decision D27). -/
def Obligations.StStoresTheBigEndianWord : Prop :=
  ∀ (r a : Reg) (off : Nibble) (s : State),
    let ea := s.wordAddr a off
    isOdd ea = false → s.valid .data ea = true → s.valid .data (ea + 1#16) = true →
      ∃ t, exec (.st r off a) s = .next t ∧
        ea.toNat = ((s.x a).toNat + 2 * off.toNat) % 65536 ∧
        (t.byte .data ea).toNat = (s.x r).toNat / 256 ∧ (t.byte .data (ea + 1#16)).toNat = (s.x r).toNat % 256 ∧
        t.pc = s.pc + 2#16 ∧ StoreOnly [ea, ea + 1#16] s t

/-- `ldb` (R112; that the upper half is kept is decision D18): at any address whose byte exists, odd or even (R51), the
lower half of the destination receives the byte. -/
def Obligations.LdbLoadsTheLowHalf : Prop :=
  ∀ (d a : Reg) (s : State), s.valid .data (s.byteAddr a) = true →
    ∃ t, exec (.ldb d a) s = .next t ∧ s.byteAddr a = s.x a ∧
      (t.x d).toNat =
        (if d = .r0 then 0 else (s.x d).toNat / 256 * 256 + (s.byte .data (s.x a)).toNat) ∧
      t.pc = s.pc + 2#16 ∧ RegOnly d s t

/-- `stb` (R114; that memory is addressed so is decision D4): at any address whose byte exists the low half of the
source is stored, and only that byte changes; where the two spaces are one a fetch sees it (R41, R61; decision D27). -/
def Obligations.StbStoresTheLowHalf : Prop :=
  ∀ (r a : Reg) (s : State), s.valid .data (s.byteAddr a) = true →
    ∃ t, exec (.stb r a) s = .next t ∧ s.byteAddr a = s.x a ∧
      (t.byte .data (s.byteAddr a)).toNat = (s.x r).toNat % 256 ∧ t.pc = s.pc + 2#16 ∧
      StoreOnly [s.byteAddr a] s t

/-- Where loads and stores stop: `ld` and `st` first at an odd effective address (R49; decision D6), then at one where a
byte of the word does not exist (R43; decision D5), `ldb` and `stb` only at an address whose byte does not exist. -/
def Obligations.LoadsAndStoresStop : Prop :=
  ∀ (r a : Reg) (off : Nibble) (s : State),
    let ea := s.wordAddr a off
    (isOdd ea = true →
      exec (.ld r off a) s = .fault (.misalignedAccess ea) ∧ exec (.st r off a) s = .fault (.misalignedAccess ea)) ∧
    (isOdd ea = false → (s.valid .data ea && s.valid .data (ea + 1#16)) = false →
      exec (.ld r off a) s = .fault (.invalidAddress .data ea) ∧
        exec (.st r off a) s = .fault (.invalidAddress .data ea)) ∧
    (s.valid .data (s.byteAddr a) = false →
      exec (.ldb r a) s = .fault (.invalidAddress .data (s.byteAddr a)) ∧
        exec (.stb r a) s = .fault (.invalidAddress .data (s.byteAddr a)))

/-- `sethi` (R110): its one spelling, its word, and its effect: the immediate in the upper half, zeros in the lower,
nothing into `%0`; it never stops and touches no flag. -/
def Obligations.SethiSetsHighClearsLow : Prop :=
  ∀ (d : Reg) (i : Byte),
    (∀ c o, assemble c .sethi [o, .reg d] = (o.sym8 c).map fun j => [.sethi d j]) ∧
    encode (.sethi d i) = 0x7000#16 ||| (d.field.setWidth 16 <<< 8) ||| i.setWidth 16 ∧
    ∀ s : State, ∃ t, exec (.sethi d i) s = .next t ∧
      (t.x d).toNat = (if d = .r0 then 0 else i.toNat * 256) ∧ t.pc = s.pc + 2#16 ∧ RegOnly d s t

/-- `movb` immediate (R115): its two spellings, its word, and its effect: the immediate in the lower half, the upper half
kept, nothing into `%0`; it never stops and touches no flag. -/
def Obligations.MovbImmReplacesTheLowerHalf : Prop :=
  ∀ (d : Reg) (i : Byte),
    (∀ c o, assemble c .ldbi [o, .reg d] = (o.sym8 c).map fun j => [.movbImm d j]) ∧
    (∀ c v, assemble c .movb [.val v, .reg d] = v.eval.map fun x => [.movbImm d (field8 x)]) ∧
    (∀ c e, assemble c .movb [.hiSym e, .reg d] = (e.eval c).map fun x => [.movbImm d (field8 (hi x))]) ∧
    (∀ c e, assemble c .movb [.loSym e, .reg d] = (e.eval c).map fun x => [.movbImm d (field8 (lo x))]) ∧
    encode (.movbImm d i) = 0xe000#16 ||| (d.field.setWidth 16 <<< 8) ||| i.setWidth 16 ∧
    ∀ s : State, ∃ t, exec (.movbImm d i) s = .next t ∧
      (t.x d).toNat = (if d = .r0 then 0 else (s.x d).toNat / 256 * 256 + i.toNat) ∧ t.pc = s.pc + 2#16 ∧ RegOnly d s t

/-! ### Supervisor-only instructions -/

/-- `lds` with K = 1 and a number from 0 to 3 (R108; decision D36) copies that system register, the pc as the address of
the `lds` itself, into the destination. -/
def Obligations.LdsReadsTheSystemRegister : Prop :=
  ∀ (d : Reg) (n : Nibble) (s : State), s.k = true → n.toNat ≤ 3 →
    ∃ t, exec (.lds d n) s = .next t ∧
      t.x d = (if d = .r0 then 0#16 else
        if n = 0#4 then s.pc else if n = 1#4 then s.ps else if n = 2#4 then s.pt else s.tt) ∧
      t.pc = s.pc + 2#16 ∧ RegOnly d s t

/-- `lds`, `sts` and `iret` in user mode stop with a privilege violation that records the word fetched (R292; decision
D22), whatever system register number they hold (R285; decision D31). -/
def Obligations.SupervisorOnlyInstructionsStopInUserMode : Prop :=
  ∀ (i : Instr) (s : State), supervisorOnly i = true → s.k = false →
    exec i s = .fault (.privilegeViolation (encode i)) ∧
    (s.run = .running → fetchInstr s = .ok i → step s = .fault (.privilegeViolation (s.word .instr s.pc)))

/-- With K = 1, `sts` and `iret` stop on every path as R109 and R241 say, and `lds` stops for a number above 3 (R108;
decisions D24, D36). -/
def Obligations.SupervisorBlanksStop : Prop :=
  ∀ s : State, s.k = true →
    exec .iret s = .fault (.unspecified "iret in supervisor mode") ∧
    ∀ (r : Reg) (n : Nibble),
      (n.toNat ≤ 3 → exec (.sts r n) s = .fault (.unspecified "sts in supervisor mode")) ∧
      (3 < n.toNat → exec (.sts r n) s = .fault (.unspecified "system register number > 3") ∧
        exec (.lds r n) s = .fault (.unspecified "system register number > 3"))

/-! ### Arithmetic and comparison -/

/-- `add` (R143, R141; decision D11): the sum modulo 65536, C the carry out of bit 15, Z that the result is zero, both
written even when the destination is `%0` (decision D17). -/
def Obligations.AddWritesSumCarryAndZero : Prop :=
  ∀ (d a b : Reg) (s : State), ∃ t, exec (.add d a b) s = .next t ∧
    (t.x d).toNat = (if d = .r0 then 0 else ((s.x a).toNat + (s.x b).toNat) % 65536) ∧
    t.c = decide (65536 ≤ (s.x a).toNat + (s.x b).toNat) ∧
    t.z = decide (((s.x a).toNat + (s.x b).toNat) % 65536 = 0) ∧
    t.pc = s.pc + 2#16 ∧ RegAndFlags d s t

/-- `add <immed4>` (R145; that the immediate is unsigned is decision D10, its flags D11, D17). -/
def Obligations.AddiAddsTheUnsignedImmediate : Prop :=
  ∀ (d : Reg) (n : Nibble) (s : State), ∃ t, exec (.addi d n) s = .next t ∧
    (t.x d).toNat = (if d = .r0 then 0 else ((s.x d).toNat + n.toNat) % 65536) ∧
    t.c = decide (65536 ≤ (s.x d).toNat + n.toNat) ∧
    t.z = decide (((s.x d).toNat + n.toNat) % 65536 = 0) ∧
    t.pc = s.pc + 2#16 ∧ RegAndFlags d s t

/-- `sub` (R146, R142; decision D12): the first operand minus the second modulo 65536, C the borrow, Z that they are
equal, both written even when the destination is `%0` (decision D17). -/
def Obligations.SubWritesDifferenceBorrowAndZero : Prop :=
  ∀ (d a b : Reg) (s : State), ∃ t, exec (.sub d a b) s = .next t ∧
    (t.x d).toNat = (if d = .r0 then 0 else ((s.x a).toNat + 65536 - (s.x b).toNat) % 65536) ∧
    t.c = decide ((s.x a).toNat < (s.x b).toNat) ∧ t.z = decide (s.x a = s.x b) ∧
    t.pc = s.pc + 2#16 ∧ RegAndFlags d s t

/-- `sub <immed4>` (R148; that the immediate is unsigned is decision D10, its flags D12, D17). -/
def Obligations.SubiSubtractsTheUnsignedImmediate : Prop :=
  ∀ (d : Reg) (n : Nibble) (s : State), ∃ t, exec (.subi d n) s = .next t ∧
    (t.x d).toNat = (if d = .r0 then 0 else ((s.x d).toNat + 65536 - n.toNat) % 65536) ∧
    t.c = decide ((s.x d).toNat < n.toNat) ∧ t.z = decide ((s.x d).toNat = n.toNat) ∧
    t.pc = s.pc + 2#16 ∧ RegAndFlags d s t

/-- `cmp` (R149; decision D13): C the exact signed order, Z equality, no register written. -/
def Obligations.CmpWritesSignedLessAndEqual : Prop :=
  ∀ (a b : Reg) (s : State), ∃ t, exec (.cmp a b) s = .next t ∧
    t.c = decide ((s.x a).toInt < (s.x b).toInt) ∧ t.z = decide (s.x a = s.x b) ∧
    t.pc = s.pc + 2#16 ∧ FlagsOnly s t

/-- `cmpl` (R150; decisions D12, D17) is one `sub` to `%0`: C the unsigned order, Z equality, no register written. -/
def Obligations.CmplComparesUnsigned : Prop :=
  ∀ (c : Ctx) (a b : Reg), assemble c .cmpl [.reg a, .reg b] = some [.sub .r0 a b] ∧
    ∀ s : State, ∃ t, execSeq [.sub .r0 a b] s = .next t ∧
      t.c = decide ((s.x a).toNat < (s.x b).toNat) ∧ t.z = decide (s.x a = s.x b) ∧
      t.pc = s.pc + 2#16 ∧ FlagsOnly s t

/-- The meaning of each branch after `cmp` (R207, which the spec derives; decisions D8, D13): taken exactly when the
signed order of the operands is the one the branch names. -/
def Obligations.BranchAfterCmpFollowsSignedOrder : Prop :=
  ∀ (a b : Reg) (s t : State) (d : Byte), exec (.cmp a b) s = .next t →
    exec (.bl d) t = .next (if (s.x a).toInt < (s.x b).toInt then t.jump (t.branchTarget d) else t.advance) ∧
    exec (.bge d) t = .next (if (s.x b).toInt ≤ (s.x a).toInt then t.jump (t.branchTarget d) else t.advance) ∧
    exec (.be d) t = .next (if s.x a = s.x b then t.jump (t.branchTarget d) else t.advance) ∧
    exec (.bne d) t = .next (if s.x a ≠ s.x b then t.jump (t.branchTarget d) else t.advance) ∧
    exec (.bg d) t = .next (if (s.x b).toInt < (s.x a).toInt then t.jump (t.branchTarget d) else t.advance)

/-! ### Logic -/

/-- `and`, `or`, `xor`, `not` (R160, R162, R164, R166): each bit of the result from the same bit of the operands,
nothing into `%0`, and no flag touched (decision D16). -/
def Obligations.LogicWorksBitByBit : Prop :=
  ∀ (d a b : Reg) (s : State),
    (∃ t, exec (.and d a b) s = .next t ∧ t.pc = s.pc + 2#16 ∧ RegOnly d s t ∧
      ∀ i, (t.x d).getLsbD i = (decide (d ≠ .r0) && ((s.x a).getLsbD i && (s.x b).getLsbD i))) ∧
    (∃ t, exec (.or d a b) s = .next t ∧ t.pc = s.pc + 2#16 ∧ RegOnly d s t ∧
      ∀ i, (t.x d).getLsbD i = (decide (d ≠ .r0) && ((s.x a).getLsbD i || (s.x b).getLsbD i))) ∧
    (∃ t, exec (.xor d a b) s = .next t ∧ t.pc = s.pc + 2#16 ∧ RegOnly d s t ∧
      ∀ i, (t.x d).getLsbD i = (decide (d ≠ .r0) && ((s.x a).getLsbD i ^^ (s.x b).getLsbD i))) ∧
    (∃ t, exec (.not d a) s = .next t ∧ t.pc = s.pc + 2#16 ∧ RegOnly d s t ∧
      ∀ i, i < 16 → (t.x d).getLsbD i = (decide (d ≠ .r0) && !(s.x a).getLsbD i))

/-! ### Rotates and shifts -/

/-- `rol` and `ror` (R182, R184; decisions D14, D15, D17): each bit comes from the bit `n` places round the 16-bit word, C
is not part of what rotates; Z that the result is zero; C the open function SHIFT_C, of which nothing is assumed (R181,
log 9). -/
def Obligations.RotatesMoveBitsRound : Prop :=
  ∀ (d a : Reg) (n : Nibble) (s : State),
    (∃ t, exec (.rol d a n) s = .next t ∧
      (∀ i, i < 16 → (t.x d).getLsbD i = (decide (d ≠ .r0) && (s.x a).getLsbD ((i + 16 - n.toNat) % 16))) ∧
      t.z = decide (s.x a = 0#16) ∧ t.c = Config.shiftC .rol (s.x a) n s.c ∧ t.pc = s.pc + 2#16 ∧
      RegAndFlags d s t) ∧
    (∃ t, exec (.ror d a n) s = .next t ∧
      (∀ i, i < 16 → (t.x d).getLsbD i = (decide (d ≠ .r0) && (s.x a).getLsbD ((i + n.toNat) % 16))) ∧
      t.z = decide (s.x a = 0#16) ∧ t.c = Config.shiftC .ror (s.x a) n s.c ∧ t.pc = s.pc + 2#16 ∧
      RegAndFlags d s t)

/-- `sl`, `sr` and `srl` (R186, R188, R190; decisions D14, D17): zeros enter at the bottom, copies of bit 15 at the top,
zeros at the top; Z that the 16-bit result is zero, whatever the destination; C the open function SHIFT_C, of which
nothing is assumed (R181, log 9). -/
def Obligations.ShiftsMoveBits : Prop :=
  ∀ (d a : Reg) (n : Nibble) (s : State),
    (∃ t, exec (.sl d a n) s = .next t ∧
      (∀ i, i < 16 → (t.x d).getLsbD i = (decide (d ≠ .r0) && decide (n.toNat ≤ i) && (s.x a).getLsbD (i - n.toNat))) ∧
      t.z = decide ((s.x a).toNat * 2 ^ n.toNat % 65536 = 0) ∧ t.c = Config.shiftC .sl (s.x a) n s.c ∧
      t.pc = s.pc + 2#16 ∧ RegAndFlags d s t) ∧
    (∃ t, exec (.sr d a n) s = .next t ∧
      (∀ i, i < 16 → (t.x d).getLsbD i =
        (decide (d ≠ .r0) && (s.x a).getLsbD (if i + n.toNat ≤ 15 then i + n.toNat else 15))) ∧
      t.z = decide ((s.x a).toNat / 2 ^ n.toNat = 0) ∧ t.c = Config.shiftC .sr (s.x a) n s.c ∧
      t.pc = s.pc + 2#16 ∧ RegAndFlags d s t) ∧
    (∃ t, exec (.srl d a n) s = .next t ∧
      (∀ i, i < 16 → (t.x d).getLsbD i = (decide (d ≠ .r0) && (s.x a).getLsbD (i + n.toNat))) ∧
      t.z = decide ((s.x a).toNat / 2 ^ n.toNat = 0) ∧ t.c = Config.shiftC .srl (s.x a) n s.c ∧
      t.pc = s.pc + 2#16 ∧ RegAndFlags d s t)

/-! ### Branches and jumps -/

/-- The displacement of format B (R80): the target of a taken branch is the address of the next instruction plus twice
the signed field, modulo 65536; field 0x00 is the next instruction, 0xff the branch itself, 0xfe the one before it. -/
def Obligations.BranchTargetIsDoubledSignedDisplacement : Prop :=
  ∀ (s : State) (d : Byte),
    ((s.branchTarget d).toNat : Int) = ((s.pc.toNat : Int) + 2 + 2 * d.toInt) % 65536 ∧
    -256 ≤ 2 * d.toInt ∧ 2 * d.toInt ≤ 254 ∧
    s.branchTarget 0x00#8 = s.pc + 2#16 ∧ s.branchTarget 0xff#8 = s.pc ∧ s.branchTarget 0xfe#8 = s.pc - 2#16

/-- The six short branches (R201 to R206): each under its two spellings where it has two, its word, the flags that take
it, the target when taken and the next instruction when not; no register, flag or memory byte changes and none stops. -/
def Obligations.ShortBranchesFollowTheirFlags : Prop :=
  ∀ d : Byte,
    (∀ c o, assemble c .bl [o] = (o.disp8 c).map (fun e => [.bl e]) ∧ assemble c .bc [o] = assemble c .bl [o] ∧
      assemble c .be [o] = (o.disp8 c).map (fun e => [.be e]) ∧ assemble c .bz [o] = assemble c .be [o] ∧
      assemble c .bne [o] = (o.disp8 c).map (fun e => [.bne e]) ∧ assemble c .bnz [o] = assemble c .bne [o] ∧
      assemble c .bge [o] = (o.disp8 c).map (fun e => [.bge e]) ∧ assemble c .bnc [o] = assemble c .bge [o] ∧
      assemble c .bg [o] = (o.disp8 c).map (fun e => [.bg e]) ∧
      assemble c .b [o] = (o.disp8 c).map (fun e => [.b e])) ∧
    encode (.bl d) = 0xf600#16 ||| d.setWidth 16 ∧ encode (.be d) = 0xf700#16 ||| d.setWidth 16 ∧
    encode (.bne d) = 0xf800#16 ||| d.setWidth 16 ∧ encode (.bge d) = 0xf900#16 ||| d.setWidth 16 ∧
    encode (.bg d) = 0xfa00#16 ||| d.setWidth 16 ∧ encode (.b d) = 0xfb00#16 ||| d.setWidth 16 ∧
    ∀ s : State,
      let goes (i : Instr) (taken : Bool) : Prop :=
        ∃ t, exec i s = .next t ∧
          (t.pc.toNat : Int) = (s.pc.toNat + 2 + if taken then 2 * d.toInt else 0) % 65536 ∧ PcOnly s t
      goes (.bl d) s.c ∧ goes (.be d) s.z ∧ goes (.bne d) (!s.z) ∧ goes (.bge d) (!s.c) ∧
        goes (.bg d) (!s.z && !s.c) ∧ goes (.b d) true

/-- `jal` (R208; decisions D7, D8, D19, D20): the pc becomes the sum of the two registers as they were, odd or even, the
link register the address of the next instruction (nothing into `%0`); no flag and no memory byte changes. -/
def Obligations.JalJumpsToTheSumAndLinks : Prop :=
  ∀ (r o a : Reg) (s : State), ∃ t, exec (.jal r o a) s = .next t ∧
    t.pc.toNat = ((s.x a).toNat + (s.x o).toNat) % 65536 ∧
    (t.x r).toNat = (if r = .r0 then 0 else (s.pc.toNat + 2) % 65536) ∧ RegOnly r s t

/-! ### System -/

/-- `int` (R240, R300; decisions D21, D29; that the environment is a free function of the call's place in the run, its
number and what it sees is log 10, what it may change log 11, and how the end of a run is kept log 12): the call of every
number that the environment implements completes. On `Resume` the registers, C, Z and data memory are what the
environment left, K is 0 and the next instruction follows; on `Halt` the run has ended with everything as it was. Nothing
else of the machine changes. A number that it does not implement stops the step (R240, R281; decision D21); which those
are is a parameter that the model carries in the state (log 13). -/
def Obligations.IntIsOneEnvironmentCall : Prop :=
  ∀ (n : BitVec 7) (s : State),
    (n ∈ s.unimplemented → exec (.int n) s = .fault (.unspecified (unimplementedInterrupt n))) ∧
    (n ∉ s.unimplemented → ∃ t, exec (.int n) s = .next t ∧
      (match Config.envCall s.envTick n s.envView with
        | .resume f c z data =>
          (∀ r, r ≠ .r0 → t.x r = f.get r) ∧ t.c = c ∧ t.z = z ∧ t.k = false ∧
          (∀ i, i ≠ 15 → i ≠ 7 → i ≠ 6 → t.ps.getLsbD i = s.ps.getLsbD i) ∧
          (∀ a, t.byte .data a = (Memory.ofCells data).read a.toNat) ∧
          (∀ a, t.byte .instr a = if s.mem.isUnified then t.byte .data a else s.byte .instr a) ∧
          t.pc = s.pc + 2#16 ∧ t.run = s.run
        | .halt info => t.run = .halted info ∧ t.pc = s.pc ∧ t.ps = s.ps ∧ RegsKept s t ∧ MemKept s t) ∧
      t.x .r0 = 0#16 ∧ t.pt = s.pt ∧ t.tt = s.tt ∧ t.mem.isUnified = s.mem.isUnified ∧ t.absent = s.absent ∧
      t.unimplemented = s.unimplemented ∧ t.envTick = s.envTick + 1)

/-- `nop` (R242): the word 0xfff0 and no effect but the next instruction; no other name, so no line of another mnemonic
assembles to it, alone or among other instructions; no operands, and that a line of `nop` with operands assembles to
nothing is the model's choice (log 22). -/
def Obligations.NopOnlyAdvances : Prop :=
  (∀ c, assemble c .nop [] = some [.nop]) ∧ (∀ c o os, assemble c .nop (o :: os) = none) ∧
  (∀ c m os is, assemble c m os = some is → .nop ∈ is → m = .nop ∧ os = []) ∧
  encode .nop = 0xfff0#16 ∧ ∀ s : State, ∃ t, exec .nop s = .next t ∧ t.pc = s.pc + 2#16 ∧ PcOnly s t

/-! ### Aliases -/

/-- The constant load (R100): `mov` and `ldi` of a `<symexpr>` are `sethi` of its upper and `movb` of its lower byte, after
which the register holds its 16-bit value and no flag has changed; with `%0` nothing changes. That a value
outside 16 bits counts by its low 16 is decision D33 for the fields and, for a negative one, the model's choice (log 21). -/
def Obligations.LoadConstantLeavesTheValue : Prop :=
  ∀ (c : Ctx) (e : Symexpr) (x : Int) (d : Reg), e.eval c = some x →
    assemble c .mov [.sym e, .reg d] = some [.sethi d (field8 (hi x)), .movbImm d (field8 (lo x))] ∧
    assemble c .ldi [.sym e, .reg d] = some [.sethi d (field8 (hi x)), .movbImm d (field8 (lo x))] ∧
    (x = 0x1234 → assembleWords c .ldi [.sym e, .reg .r1] = some [0x7112#16, 0xe134#16]) ∧
    ∀ s : State, ∃ t, execSeq [.sethi d (field8 (hi x)), .movbImm d (field8 (lo x))] s = .next t ∧
      t.x d = (if d = .r0 then 0#16 else BitVec.ofInt 16 x) ∧ t.pc = s.pc + 4#16 ∧ RegOnly d s t

/-- The register move (R101): `mov` and `st` of two registers are one `or` with the zero register, which copies and
touches no flag. -/
def Obligations.RegisterMoveCopies : Prop :=
  ∀ (c : Ctx) (a d : Reg),
    assemble c .mov [.reg a, .reg d] = some [.or d .r0 a] ∧ assemble c .st [.reg a, .reg d] = some [.or d .r0 a] ∧
    assembleWords c .mov [.reg .r3, .reg .r4] = some [0x5403#16] ∧
    ∀ s : State, ∃ t, execSeq [.or d .r0 a] s = .next t ∧ t.x d = (if d = .r0 then 0#16 else s.x a) ∧
      t.pc = s.pc + 2#16 ∧ RegOnly d s t

/-- Loading a word from an absolute address (R102): three instructions, which leave the word in the destination and the
address in `%t6` (where that is not the destination). That a value
outside 16 bits counts by its low 16 is decision D33 for the fields and, for a negative one, the model's choice (log 21). -/
def Obligations.AbsoluteLoadUsesT6 : Prop :=
  ∀ (c : Ctx) (e : Symexpr) (x : Int) (d : Reg), e.eval c = some x →
    let is : List Instr := [.sethi t6 (field8 (hi x)), .movbImm t6 (field8 (lo x)), .ld d 0#4 t6]
    let ea : Word := BitVec.ofInt 16 x
    assemble c .mov [.memSym e, .reg d] = some is ∧ assemble c .ld [.memSym e, .reg d] = some is ∧
    ∀ s : State, isOdd ea = false → s.valid .data ea = true → s.valid .data (ea + 1#16) = true →
      ∃ t, execSeq is s = .next t ∧ t.x d = (if d = .r0 then 0#16 else s.word .data ea) ∧
        (d ≠ t6 → t.x t6 = ea) ∧ (∀ r, r ≠ d → r ≠ t6 → t.x r = s.x r) ∧ t.pc = s.pc + 6#16 ∧
        t.ps = s.ps ∧ MemKept s t ∧ RestKept s t

/-- Storing a word to an absolute address (R105): three instructions, which leave the address in `%t6`; with `%t6` itself as
the source, what is stored is the address; where the two spaces are one a fetch sees it (decision D27). That a value
outside 16 bits counts by its low 16 is decision D33 for the fields and, for a negative one, the model's choice (log 21). -/
def Obligations.AbsoluteStoreUsesT6 : Prop :=
  ∀ (c : Ctx) (e : Symexpr) (x : Int) (r : Reg), e.eval c = some x →
    let is : List Instr := [.sethi t6 (field8 (hi x)), .movbImm t6 (field8 (lo x)), .st r 0#4 t6]
    let ea : Word := BitVec.ofInt 16 x
    assemble c .mov [.reg r, .memSym e] = some is ∧ assemble c .st [.reg r, .memSym e] = some is ∧
    ∀ s : State, isOdd ea = false → s.valid .data ea = true → s.valid .data (ea + 1#16) = true →
      ∃ t, execSeq is s = .next t ∧ t.word .data ea = (if r = t6 then ea else s.x r) ∧ t.x t6 = ea ∧
        (∀ q, q ≠ t6 → t.x q = s.x q) ∧ t.pc = s.pc + 6#16 ∧ t.ps = s.ps ∧
        (∀ sp b, b ≠ ea → b ≠ ea + 1#16 → t.byte sp b = s.byte sp b) ∧
        (s.mem.isUnified = false → ∀ b, t.byte .instr b = s.byte .instr b) ∧
        (s.mem.isUnified = true → ∀ b, t.byte .instr b = t.byte .data b) ∧ RestKept s t

/-- `push %rsrc` (R251): with S the stack pointer before, it becomes S - 2 and the word at S holds the register (S - 2 for
`%sp` itself); C and Z are those of the subtraction; no other byte or register changes, and where the two
spaces are one a fetch sees the store (decision D27); an odd S stops the store. -/
def Obligations.PushStoresAtTheOldStackPointer : Prop :=
  ∀ (c : Ctx) (r : Reg),
    assemble c .push [.reg r] = some [.subi sp 2#4, .st r 1#4 sp] ∧
    ∀ s : State,
      (isOdd (s.x sp) = true → execSeq [.subi sp 2#4, .st r 1#4 sp] s = .fault (.misalignedAccess (s.x sp))) ∧
      (isOdd (s.x sp) = false → s.valid .data (s.x sp) = true → s.valid .data (s.x sp + 1#16) = true →
        ∃ t, execSeq [.subi sp 2#4, .st r 1#4 sp] s = .next t ∧ t.x sp = s.x sp - 2#16 ∧
          t.word .data (s.x sp) = (if r = sp then s.x sp - 2#16 else s.x r) ∧ RegsKeptBut sp s t ∧
          t.c = decide ((s.x sp).toNat < 2) ∧ t.z = decide ((s.x sp).toNat = 2) ∧ PsKeptButFlags s t ∧
          t.pc = s.pc + 4#16 ∧ (∀ q b, b ≠ s.x sp → b ≠ s.x sp + 1#16 → t.byte q b = s.byte q b) ∧
          (s.mem.isUnified = false → ∀ b, t.byte .instr b = s.byte .instr b) ∧
          (s.mem.isUnified = true → ∀ b, t.byte .instr b = t.byte .data b) ∧ RestKept s t)

/-- `pop %rdest` (R253): the destination receives the word at S + 2, then `%sp` is S + 2 (the loaded word plus 2 for `%sp`
itself); C and Z are those of the addition; no byte of memory changes. -/
def Obligations.PopLoadsTheLastPushedWord : Prop :=
  ∀ (c : Ctx) (d : Reg),
    assemble c .pop [.reg d] = some [.ld d 1#4 sp, .addi sp 2#4] ∧
    ∀ s : State,
      let ea := s.x sp + 2#16
      let old : Word := if d = sp then s.word .data ea else s.x sp
      isOdd ea = false → s.valid .data ea = true → s.valid .data (ea + 1#16) = true →
        ∃ t, execSeq [.ld d 1#4 sp, .addi sp 2#4] s = .next t ∧ t.x sp = old + 2#16 ∧
          (d ≠ sp → t.x d = if d = .r0 then 0#16 else s.word .data ea) ∧
          (∀ r, r ≠ d → r ≠ sp → t.x r = s.x r) ∧
          t.c = decide (65536 ≤ old.toNat + 2) ∧ t.z = decide ((old.toNat + 2) % 65536 = 0) ∧ PsKeptButFlags s t ∧
          t.pc = s.pc + 4#16 ∧ MemKept s t ∧ RestKept s t

/-- `call <symexpr>` (R217): three instructions, after which the pc is the symbol's value, `%t6` holds it too and `%ra` is
the address of the call plus 6. That a value
outside 16 bits counts by its low 16 is decision D33 for the fields and, for a negative one, the model's choice (log 21). -/
def Obligations.CallSymbolReturnsPastTheCall : Prop :=
  ∀ (c : Ctx) (e : Symexpr) (x : Int), e.eval c = some x →
    let is : List Instr := [.sethi t6 (field8 (hi x)), .movbImm t6 (field8 (lo x)), .jal ra .r0 t6]
    assemble c .call [.sym e] = some is ∧
    (x = 0x0200 → assembleWords c .call [.sym e] = some [0x7702#16, 0xe700#16, 0xce07#16]) ∧
    ∀ s : State, ∃ t, execSeq is s = .next t ∧ t.pc = BitVec.ofInt 16 x ∧ t.x ra = s.pc + 6#16 ∧
      t.x t6 = BitVec.ofInt 16 x ∧ (∀ r, r ≠ ra → r ≠ t6 → t.x r = s.x r) ∧ t.ps = s.ps ∧ MemKept s t ∧ RestKept s t

/-- `ret` (R220): one `jal` to the address in `%ra` with the link discarded. -/
def Obligations.RetJumpsToTheReturnAddress : Prop :=
  ∀ c : Ctx, assemble c .ret [] = some [.jal .r0 .r0 ra] ∧ assembleWords c .ret [] = some [0xc00e#16] ∧
    ∀ s : State, ∃ t, execSeq [.jal .r0 .r0 ra] s = .next t ∧ t.pc = s.x ra ∧ PcOnly s t

/-- The eleven short forms that repeat the destination as a source (R144, R147, R161, R163, R165, R167, R183, R185, R187,
R189, R191) are their long forms with the destination as the first source. -/
def Obligations.ShortFormsRepeatTheDestination : Prop :=
  ∀ (c : Ctx) (a d : Reg) (v : Value) (x : Int), v.eval = some x →
    assemble c .add [.reg a, .reg d] = some [.add d d a] ∧ assemble c .sub [.reg a, .reg d] = some [.sub d d a] ∧
    assemble c .and [.reg a, .reg d] = some [.and d d a] ∧ assemble c .or [.reg a, .reg d] = some [.or d d a] ∧
    assemble c .xor [.reg a, .reg d] = some [.xor d d a] ∧ assemble c .not [.reg d] = some [.not d d] ∧
    assemble c .rol [.val v, .reg d] = some [.rol d d (field4 x)] ∧
    assemble c .ror [.val v, .reg d] = some [.ror d d (field4 x)] ∧
    assemble c .sl [.val v, .reg d] = some [.sl d d (field4 x)] ∧
    assemble c .sll [.val v, .reg d] = some [.sl d d (field4 x)] ∧
    assemble c .sla [.val v, .reg d] = some [.sl d d (field4 x)] ∧
    assemble c .sr [.val v, .reg d] = some [.sr d d (field4 x)] ∧
    assemble c .sra [.val v, .reg d] = some [.sr d d (field4 x)] ∧
    assemble c .srl [.val v, .reg d] = some [.srl d d (field4 x)]

/-- The ten other forms of `jal`, `j` and `call` (R209 to R216, R218, R219): each is one `jal`, after the two instructions
that load `%t6` where the target is a `<symexpr>`. -/
def Obligations.JumpFormsExpandToJal : Prop :=
  ∀ (c : Ctx) (e : Symexpr) (x : Int) (a o r : Reg), e.eval c = some x →
    let ld6 : List Instr := [.sethi t6 (field8 (hi x)), .movbImm t6 (field8 (lo x))]
    assemble c .jal [.symSum e o, .reg r] = some (ld6 ++ [.jal r o t6]) ∧
    assemble c .jal [.sym e, .reg r] = some (ld6 ++ [.jal r .r0 t6]) ∧
    assemble c .jal [.reg a, .reg r] = some [.jal r .r0 a] ∧
    assemble c .j [.symSum e o] = some (ld6 ++ [.jal .r0 o t6]) ∧
    assemble c .j [.sym e] = some (ld6 ++ [.jal .r0 .r0 t6]) ∧
    assemble c .j [.sum a o] = some [.jal .r0 o a] ∧ assemble c .j [.reg a] = some [.jal .r0 .r0 a] ∧
    assemble c .call [.symSum e o] = some (ld6 ++ [.jal ra o t6]) ∧
    assemble c .call [.sum a o] = some [.jal ra o a] ∧ assemble c .call [.reg a] = some [.jal ra .r0 a]

/-- The other one-line aliases: a word load and store with no offset (R104, R107, under `mov` only), the constant load
of a bare `<value>` by `mov` (R264, last sentence), byte loads and stores at an absolute address (R111, R113), `push` and
`pop` of no operand (R250, R252) with their words. -/
def Obligations.OneLineAliasesExpand : Prop :=
  ∀ (c : Ctx) (e : Symexpr) (x : Int) (v : Value) (y : Int) (a r : Reg), e.eval c = some x → v.eval = some y →
    let ld6 : List Instr := [.sethi t6 (field8 (hi x)), .movbImm t6 (field8 (lo x))]
    assemble c .mov [.val v, .reg r] = some [.sethi r (field8 (hi y)), .movbImm r (field8 (lo y))] ∧
    assemble c .mov [.mem a, .reg r] = some [.ld r 0#4 a] ∧ assemble c .mov [.reg r, .mem a] = some [.st r 0#4 a] ∧
    assemble c .movb [.memSym e, .reg r] = some (ld6 ++ [.ldb r t6]) ∧
    assemble c .ldb [.memSym e, .reg r] = some (ld6 ++ [.ldb r t6]) ∧
    assemble c .movb [.reg r, .memSym e] = some (ld6 ++ [.stb r t6]) ∧
    assemble c .stb [.reg r, .memSym e] = some (ld6 ++ [.stb r t6]) ∧
    assemble c .push [] = some [.subi sp 2#4] ∧ assembleWords c .push [] = some [0xfdd2#16] ∧
    assemble c .pop [] = some [.addi sp 2#4] ∧ assembleWords c .pop [] = some [0xfed2#16]

/-- The extraction operators (R257): shifts and masks, and a 16-bit value is its two bytes put together. What they give for
a negative value is the model's choice (log 21). -/
def Obligations.ExtractionOperatorsSplitAValue : Prop :=
  ∀ x : Int, hi x = x >>> (8 : Nat) ∧ hi16 x = x >>> (16 : Nat) ∧ lo x = Int.emod x 256 ∧ lo16 x = Int.emod x 65536 ∧
    (∀ n : Nat, x = n → hi x = (n >>> 8 : Nat) ∧ lo x = (n &&& 0xff : Nat) ∧ lo16 x = (n &&& 0xffff : Nat)) ∧
    x = hi x * 256 + lo x ∧ 0 ≤ lo x ∧ lo x < 256 ∧ (0 ≤ x → x < 65536 → 0 ≤ hi x ∧ hi x < 256)

/-- The field of a branch (R261): for a target at an even distance `k` from -256 to +254 from the next instruction,
counted modulo 65536 as the processor adds it (spec/00_scope.md 5.1, R200), the assembler gives the field that holds half
of `k`, and the processor's target from that field is the operand. That the distance wraps is the model's reading of
R261 and what it answers for other distances is its choice (log 22). -/
def Obligations.AssembledBranchReachesItsTarget : Prop :=
  ∀ (s : State) (target k : Int), (target - (s.pc.toNat + 2 + k)) % 65536 = 0 → k % 2 = 0 → -256 ≤ k → k ≤ 254 →
    ∃ d, dispField s.pc target = some d ∧ 2 * d.toInt = k ∧ s.branchTarget d = BitVec.ofInt 16 target
end

