-- ==== Sys2Proof/Laws/Bits.lean ====
section
/-! SUPPORT. The bit-field lemmas: fields of a packed word, halves of a word, bits of a status word. -/

namespace Sys2Proof

theorem pack4_toNat (o a b c : Nibble) :
    (pack4 o a b c).toNat = o.toNat * 4096 + a.toNat * 256 + b.toNat * 16 + c.toNat := by
  have ho := o.isLt; have ha := a.isLt; have hb := b.isLt; have hc := c.isLt
  have h1 : (o ++ a).toNat = o.toNat * 16 + a.toNat := by
    rw [BitVec.toNat_append, ← Nat.shiftLeft_add_eq_or_of_lt ha, Nat.shiftLeft_eq]
  have h2 : (o ++ a ++ b).toNat = (o.toNat * 16 + a.toNat) * 16 + b.toNat := by
    rw [BitVec.toNat_append, ← Nat.shiftLeft_add_eq_or_of_lt hb, Nat.shiftLeft_eq, h1]
  have h3 : (o ++ a ++ b ++ c).toNat = ((o.toNat * 16 + a.toNat) * 16 + b.toNat) * 16 + c.toNat := by
    rw [BitVec.toNat_append, ← Nat.shiftLeft_add_eq_or_of_lt hc, Nat.shiftLeft_eq, h2]
  show (o ++ a ++ b ++ c).toNat = _
  omega

theorem pack8_toNat (o a : Nibble) (i : Byte) :
    (pack8 o a i).toNat = o.toNat * 4096 + a.toNat * 256 + i.toNat := by
  have ha := a.isLt; have hi := i.isLt
  have h1 : (o ++ a).toNat = o.toNat * 16 + a.toNat := by
    rw [BitVec.toNat_append, ← Nat.shiftLeft_add_eq_or_of_lt ha, Nat.shiftLeft_eq]
  have h2 : (o ++ a ++ i).toNat = (o.toNat * 16 + a.toNat) * 256 + i.toNat := by
    rw [BitVec.toNat_append, ← Nat.shiftLeft_add_eq_or_of_lt hi, Nat.shiftLeft_eq, h1]
  rw [show (pack8 o a i).toNat = (o ++ a ++ i).toNat from rfl, h2]
  ring

theorem ofBytes_toNat (h l : Byte) : (ofBytes h l).toNat = h.toNat * 256 + l.toNat := by
  have hl := l.isLt
  show (h ++ l).toNat = _
  rw [BitVec.toNat_append, ← Nat.shiftLeft_add_eq_or_of_lt hl, Nat.shiftLeft_eq]

theorem nib3_toNat (w : Word) : (nib3 w).toNat = w.toNat / 4096 % 16 := by
  simp [nib3, Nat.shiftRight_eq_div_pow]

theorem nib2_toNat (w : Word) : (nib2 w).toNat = w.toNat / 256 % 16 := by
  simp [nib2, Nat.shiftRight_eq_div_pow]

theorem nib1_toNat (w : Word) : (nib1 w).toNat = w.toNat / 16 % 16 := by
  simp [nib1, Nat.shiftRight_eq_div_pow]

theorem nib0_toNat (w : Word) : (nib0 w).toNat = w.toNat % 16 := by
  simp [nib0]

theorem hiByte_toNat (w : Word) : (hiByte w).toNat = w.toNat / 256 := by
  have := w.isLt
  simp [hiByte, Nat.shiftRight_eq_div_pow]
  omega

theorem loByte_toNat (w : Word) : (loByte w).toNat = w.toNat % 256 := by
  simp [loByte]

@[simp] theorem nib3_pack4 (o a b c : Nibble) : nib3 (pack4 o a b c) = o := by
  apply BitVec.eq_of_toNat_eq; rw [nib3_toNat, pack4_toNat]
  have := o.isLt; have := a.isLt; have := b.isLt; have := c.isLt; omega

@[simp] theorem nib2_pack4 (o a b c : Nibble) : nib2 (pack4 o a b c) = a := by
  apply BitVec.eq_of_toNat_eq; rw [nib2_toNat, pack4_toNat]
  have := o.isLt; have := a.isLt; have := b.isLt; have := c.isLt; omega

@[simp] theorem nib1_pack4 (o a b c : Nibble) : nib1 (pack4 o a b c) = b := by
  apply BitVec.eq_of_toNat_eq; rw [nib1_toNat, pack4_toNat]
  have := o.isLt; have := a.isLt; have := b.isLt; have := c.isLt; omega

@[simp] theorem nib0_pack4 (o a b c : Nibble) : nib0 (pack4 o a b c) = c := by
  apply BitVec.eq_of_toNat_eq; rw [nib0_toNat, pack4_toNat]
  have := o.isLt; have := a.isLt; have := b.isLt; have := c.isLt; omega

@[simp] theorem nib3_pack8 (o a : Nibble) (i : Byte) : nib3 (pack8 o a i) = o := by
  apply BitVec.eq_of_toNat_eq; rw [nib3_toNat, pack8_toNat]
  have := o.isLt; have := a.isLt; have := i.isLt; omega

@[simp] theorem nib2_pack8 (o a : Nibble) (i : Byte) : nib2 (pack8 o a i) = a := by
  apply BitVec.eq_of_toNat_eq; rw [nib2_toNat, pack8_toNat]
  have := o.isLt; have := a.isLt; have := i.isLt; omega

@[simp] theorem loByte_pack8 (o a : Nibble) (i : Byte) : loByte (pack8 o a i) = i := by
  apply BitVec.eq_of_toNat_eq; rw [loByte_toNat, pack8_toNat]
  have := o.isLt; have := a.isLt; have := i.isLt; omega

/-- A word is its four nibbles. -/
theorem pack4_nibbles (w : Word) : pack4 (nib3 w) (nib2 w) (nib1 w) (nib0 w) = w := by
  apply BitVec.eq_of_toNat_eq
  rw [pack4_toNat, nib3_toNat, nib2_toNat, nib1_toNat, nib0_toNat]
  have := w.isLt; omega

/-- A word is its two upper nibbles and its lower half. -/
theorem pack8_parts (w : Word) : pack8 (nib3 w) (nib2 w) (loByte w) = w := by
  apply BitVec.eq_of_toNat_eq
  rw [pack8_toNat, nib3_toNat, nib2_toNat, loByte_toNat]
  have := w.isLt; omega

theorem nibble_and_ones (n : Nibble) : n &&& 0xf#4 = n := by revert n; decide

theorem nib3_and (v w : Word) : nib3 (v &&& w) = nib3 v &&& nib3 w := by simp [nib3, BitVec.extractLsb'_and]

theorem nib2_and (v w : Word) : nib2 (v &&& w) = nib2 v &&& nib2 w := by simp [nib2, BitVec.extractLsb'_and]

theorem nib1_and (v w : Word) : nib1 (v &&& w) = nib1 v &&& nib1 w := by simp [nib1, BitVec.extractLsb'_and]

theorem nib0_and (v w : Word) : nib0 (v &&& w) = nib0 v &&& nib0 w := by simp [nib0, BitVec.extractLsb'_and]

theorem loByte_and (v w : Word) : loByte (v &&& w) = loByte v &&& loByte w := by simp [loByte, BitVec.extractLsb'_and]

/-- Words of four fields are joined field by field. -/
theorem pack4_and (o a b c o' a' b' c' : Nibble) :
    pack4 o a b c &&& pack4 o' a' b' c' = pack4 (o &&& o') (a &&& a') (b &&& b') (c &&& c') := by
  rw [← pack4_nibbles (pack4 o a b c &&& pack4 o' a' b' c'), nib3_and, nib2_and, nib1_and, nib0_and]
  simp only [nib3_pack4, nib2_pack4, nib1_pack4, nib0_pack4]

theorem pack8_and (o a o' a' : Nibble) (i i' : Byte) :
    pack8 o a i &&& pack8 o' a' i' = pack8 (o &&& o') (a &&& a') (i &&& i') := by
  rw [← pack8_parts (pack8 o a i &&& pack8 o' a' i'), nib3_and, nib2_and, loByte_and]
  simp only [nib3_pack8, nib2_pack8, loByte_pack8]

@[simp] theorem hiByte_ofBytes (h l : Byte) : hiByte (ofBytes h l) = h := by
  apply BitVec.eq_of_toNat_eq; rw [hiByte_toNat, ofBytes_toNat]
  have := h.isLt; have := l.isLt; omega

@[simp] theorem loByte_ofBytes (h l : Byte) : loByte (ofBytes h l) = l := by
  apply BitVec.eq_of_toNat_eq; rw [loByte_toNat, ofBytes_toNat]
  have := h.isLt; have := l.isLt; omega

@[simp] theorem ofBytes_halves (w : Word) : ofBytes (hiByte w) (loByte w) = w := by
  apply BitVec.eq_of_toNat_eq; rw [ofBytes_toNat, hiByte_toNat, loByte_toNat]
  have := w.isLt; omega

@[simp] theorem Reg.ofField_field (r : Reg) : Reg.ofField r.field = r := by cases r <;> rfl

@[simp] theorem Reg.field_ofField (n : Nibble) : (Reg.ofField n).field = n := by
  revert n; decide

@[simp] theorem SysReg.ofField_field (r : SysReg) : SysReg.ofField r.field = some r := by cases r <;> rfl

/-- A field names a system register exactly when the well-formedness check says so. -/
theorem SysReg.ofField_isSome (n : Nibble) : (SysReg.ofField n).isSome = namesSysReg n := by
  revert n; decide

namespace Machine

/-- Each bit of the mask that keeps everything but C and Z. -/
theorem psMask_bit (i : Nat) :
    (0xff3f#16 : Word).getLsbD i = (decide (i < 16) && !(i == 6) && !(i == 7)) := by
  by_cases h : i < 16
  · have : ∀ j : Fin 16, (0xff3f#16 : Word).getLsbD j = (decide (j.val < 16) && !(j.val == 6) && !(j.val == 7)) := by
      decide
    exact this ⟨i, h⟩
  · simp [h, BitVec.getLsbD_of_ge _ _ (Nat.le_of_not_lt h)]

theorem psC_bit (i : Nat) : (0x0080#16 : Word).getLsbD i = (i == 7) := by
  by_cases h : i < 16
  · have : ∀ j : Fin 16, (0x0080#16 : Word).getLsbD j = (j.val == 7) := by decide
    exact this ⟨i, h⟩
  · rw [BitVec.getLsbD_of_ge _ _ (Nat.le_of_not_lt h)]
    symm; simp; omega

theorem psZ_bit (i : Nat) : (0x0040#16 : Word).getLsbD i = (i == 6) := by
  by_cases h : i < 16
  · have : ∀ j : Fin 16, (0x0040#16 : Word).getLsbD j = (j.val == 6) := by decide
    exact this ⟨i, h⟩
  · rw [BitVec.getLsbD_of_ge _ _ (Nat.le_of_not_lt h)]
    symm; simp; omega

/-- C of a status word with flags written. -/
theorem psWithFlags_c (ps : Word) (c z : Bool) : (psWithFlags ps c z).getLsbD 7 = c := by
  cases c <;> cases z <;> simp [psWithFlags]

/-- Z of a status word with flags written. -/
theorem psWithFlags_z (ps : Word) (c z : Bool) : (psWithFlags ps c z).getLsbD 6 = z := by
  cases c <;> cases z <;> simp [psWithFlags]

/-- Every other bit of a status word with flags written is kept. -/
theorem psWithFlags_other (ps : Word) (c z : Bool) (i : Nat) (h7 : i ≠ 7) (h6 : i ≠ 6) :
    (psWithFlags ps c z).getLsbD i = ps.getLsbD i := by
  have hc : (if c then 0x0080#16 else 0#16 : Word).getLsbD i = false := by
    cases c
    · simp
    · simp only [if_true, psC_bit]; simpa using h7
  have hz : (if z then 0x0040#16 else 0#16 : Word).getLsbD i = false := by
    cases z
    · simp
    · simp only [if_true, psZ_bit]; simpa using h6
  rw [psWithFlags, BitVec.getLsbD_or, BitVec.getLsbD_or, BitVec.getLsbD_and, hc, hz, psMask_bit]
  simp [h7, h6]
  intro h; exact BitVec.lt_of_getLsbD h

theorem psUserMask_bit (i : Nat) : (0x7fff#16 : Word).getLsbD i = decide (i < 15) := by
  by_cases h : i < 16
  · have : ∀ j : Fin 16, (0x7fff#16 : Word).getLsbD j = decide (j.val < 15) := by decide
    exact this ⟨i, h⟩
  · rw [BitVec.getLsbD_of_ge _ _ (Nat.le_of_not_lt h)]
    symm; simp; omega

/-- K of a status word put in user mode. -/
theorem psUserMode_k (ps : Word) : (psUserMode ps).getLsbD 15 = false := by
  simp [psUserMode]

/-- Every other bit of a status word put in user mode is kept. -/
theorem psUserMode_other (ps : Word) (i : Nat) (h : i ≠ 15) : (psUserMode ps).getLsbD i = ps.getLsbD i := by
  rw [psUserMode, BitVec.getLsbD_and, psUserMask_bit]
  by_cases h' : i < 15
  · simp [h']
  · have : 16 ≤ i := by omega
    simp [BitVec.getLsbD_of_ge _ _ this]

end Machine

end Sys2Proof
end

