-- ==== Sys2Proof/Laws/Assembler.lean ====
section
/-! SUPPORT. The assembler's small lemmas: the two bytes of a loaded constant, what a constant operand is worth, and
everything the field of a branch can be. -/

namespace Sys2Proof.Asm

open Sys2Proof.Machine

/-! ### The two bytes of a constant (R100, R257) -/

/-- The pair that loads a constant puts its 16-bit value together: the upper byte over a cleared lower half, then the
lower byte over that. -/
theorem replaceLower_upperHalf (x : Int) :
    replaceLower (upperHalf (field8 (hi x))) (field8 (lo x)) = BitVec.ofInt 16 x := by
  apply BitVec.eq_of_toNat_eq
  rw [replaceLower, ofBytes_toNat, hiByte_toNat, upperHalf, ofBytes_toNat]
  simp only [field8, hi, lo, BitVec.toNat_ofInt]
  simp; omega

/-! ### Constant operands (R100, R264) -/

@[simp] theorem Operand.constant_sym (c : Ctx) (e : Symexpr) : (Operand.sym e).constant c = e.eval c := rfl
@[simp] theorem Operand.constant_val (c : Ctx) (v : Value) : (Operand.val v).constant c = v.eval := rfl
@[simp] theorem Operand.constant_hiSym (c : Ctx) (e : Symexpr) : (Operand.hiSym e).constant c = (e.eval c).map hi := rfl
@[simp] theorem Operand.constant_loSym (c : Ctx) (e : Symexpr) : (Operand.loSym e).constant c = (e.eval c).map lo := rfl
@[simp] theorem Operand.constant_reg (c : Ctx) (r : Reg) : (Operand.reg r).constant c = none := rfl
@[simp] theorem Operand.constant_sys (c : Ctx) (r : SysReg) : (Operand.sys r).constant c = none := rfl
@[simp] theorem Operand.constant_mem (c : Ctx) (r : Reg) : (Operand.mem r).constant c = none := rfl
@[simp] theorem Operand.constant_memOff (c : Ctx) (r : Reg) (v : Value) : (Operand.memOff r v).constant c = none := rfl
@[simp] theorem Operand.constant_memSym (c : Ctx) (e : Symexpr) : (Operand.memSym e).constant c = none := rfl

/-! ### The field of a branch (R261) -/

/-- The distance of a branch, as a number from -32768 to 32767, is that of the target from the next instruction,
modulo 65536. -/
theorem dispDelta_emod (here : Word) (target : Int) :
    ((dispDelta here target).toInt - (target - (here.toNat + 2))) % 65536 = 0 := by
  have h := here.isLt
  have ht : (BitVec.ofInt 16 target).toNat = (target % 65536).toNat := BitVec.toNat_ofInt ..
  have hd : (dispDelta here target).toNat = ((target % 65536).toNat + 65536 - (here.toNat + 2) % 65536) % 65536 := by
    rw [dispDelta, BitVec.toNat_sub, ht, BitVec.toNat_add]
    simp only [BitVec.toNat_ofNat]
    omega
  rw [BitVec.toInt_eq_toNat_cond, hd]
  split <;> omega

/-- Everything the field of a branch can be: it is given exactly for an even distance from -256 to +254, and holds half
of it. -/
theorem dispField_eq_some (here : Word) (target : Int) (d : Byte) :
    dispField here target = some d ↔ (dispDelta here target).toInt = 2 * d.toInt := by
  have h1 : d.toInt < 128 := BitVec.toInt_lt
  have h2 : -128 ≤ d.toInt := BitVec.le_toInt d
  generalize hd : (dispDelta here target).toInt = delta
  simp only [dispField, hd]
  constructor
  · intro h
    split at h
    · next hr =>
      have hi := congrArg BitVec.toInt (Option.some.inj h)
      rw [BitVec.toInt_ofInt, Int.bmod_def] at hi
      norm_num at hi
      split at hi <;> omega
    · cases h
  · intro h
    rw [if_pos (by omega)]
    congr 1
    apply BitVec.eq_of_toInt_eq
    rw [h, Int.mul_ediv_cancel_left _ (by decide), BitVec.ofInt_toInt]

end Sys2Proof.Asm
end

