-- ==== Sys2Proof/Laws/Memory.lean ====
section
/-! SUPPORT. Memory as a list of cells: reading after writing, and every operation keeps the canonical form. -/

namespace Sys2Proof.Machine

@[simp] theorem Memory.read_nil (a : Nat) : Memory.read [] a = fillByte := rfl

theorem Memory.read_erase (m : Memory) (a q : Nat) :
    (m.erase a).read q = if q = a then fillByte else m.read q := by
  induction m with
  | nil => simp [Memory.erase]
  | cons c m ih =>
    obtain ⟨k, b⟩ := c
    simp only [Memory.erase, Memory.read]
    split
    · next h =>
      rw [ih]
      split
      · rfl
      · next hq => rw [if_neg (by omega)]
    · next h =>
      simp only [Memory.read]
      split
      · next hq => rw [if_neg (by omega)]
      · exact ih

theorem Memory.not_mem_erase (m : Memory) (a : Nat) : ∀ c ∈ m.erase a, c.1 ≠ a := by
  induction m with
  | nil => intro c h; cases h
  | cons c m ih =>
    obtain ⟨k, b⟩ := c
    intro d hd
    simp only [Memory.erase] at hd
    split at hd
    · exact ih d hd
    · next h =>
      rcases List.mem_cons.1 hd with rfl | hd
      · exact h
      · exact ih d hd

theorem Memory.read_insert (m : Memory) (a : Nat) (v : Byte) (q : Nat) (h : ∀ c ∈ m, c.1 ≠ a) :
    (m.insert a v).read q = if q = a then v else m.read q := by
  induction m with
  | nil => simp [Memory.insert, Memory.read, eq_comm]
  | cons c m ih =>
    obtain ⟨k, b⟩ := c
    have hk : k ≠ a := h (k, b) (List.mem_cons_self ..)
    simp only [Memory.insert]
    split
    · simp only [Memory.read, eq_comm (a := q)]
    · simp only [Memory.read]
      split
      · next hq => rw [if_neg (by omega)]
      · exact ih fun c hc => h c (List.mem_cons_of_mem _ hc)

/-- Reading after writing: the address written reads the byte, every other address reads as before. -/
theorem Memory.read_write (m : Memory) (a : Nat) (v : Byte) (q : Nat) :
    (m.write a v).read q = if q = a then v else m.read q := by
  unfold Memory.write
  split
  · next h => subst h; exact Memory.read_erase m a q
  · rw [Memory.read_insert _ _ _ _ (Memory.not_mem_erase m a), Memory.read_erase]
    split <;> rfl

theorem Memory.mem_of_mem_erase (m : Memory) (a : Nat) : ∀ c ∈ m.erase a, c ∈ m := by
  induction m with
  | nil => intro c h; exact h
  | cons c m ih =>
    obtain ⟨k, b⟩ := c
    intro d hd
    simp only [Memory.erase] at hd
    split at hd
    · exact List.mem_cons_of_mem _ (ih d hd)
    · rcases List.mem_cons.1 hd with rfl | hd
      · exact List.mem_cons_self ..
      · exact List.mem_cons_of_mem _ (ih d hd)

/-- Erasing keeps the canonical form. -/
theorem Memory.wf_erase (m : Memory) (a : Nat) (h : m.wf) : (m.erase a).wf := by
  refine ⟨?_, fun c hc => h.2 c (Memory.mem_of_mem_erase m a c hc)⟩
  have hp := h.1
  clear h
  induction m with
  | nil => exact hp
  | cons c m ih =>
    obtain ⟨k, b⟩ := c
    obtain ⟨hall, htl⟩ := List.pairwise_cons.1 hp
    simp only [Memory.erase]
    split
    · exact ih htl
    · exact List.pairwise_cons.2 ⟨fun c hc => hall c (Memory.mem_of_mem_erase m a c hc), ih htl⟩

theorem Memory.mem_insert (m : Memory) (a : Nat) (v : Byte) : ∀ c ∈ m.insert a v, c = (a, v) ∨ c ∈ m := by
  induction m with
  | nil => intro c hc; exact .inl (by simpa [Memory.insert] using hc)
  | cons d m ih =>
    obtain ⟨k, b⟩ := d
    intro c hc
    simp only [Memory.insert] at hc
    split at hc
    · rcases List.mem_cons.1 hc with rfl | hc
      · exact .inl rfl
      · exact .inr hc
    · rcases List.mem_cons.1 hc with rfl | hc
      · exact .inr (List.mem_cons_self ..)
      · exact (ih c hc).imp id (List.mem_cons_of_mem _)

theorem Memory.pairwise_insert (m : Memory) (a : Nat) (v : Byte) (hp : m.Pairwise fun c d => c.1 < d.1)
    (hn : ∀ c ∈ m, c.1 ≠ a) : (m.insert a v).Pairwise fun c d => c.1 < d.1 := by
  induction m with
  | nil => simp [Memory.insert]
  | cons c m ih =>
    obtain ⟨k, b⟩ := c
    obtain ⟨hall, htl⟩ := List.pairwise_cons.1 hp
    have hk : k ≠ a := hn (k, b) (List.mem_cons_self ..)
    simp only [Memory.insert]
    split
    · next hlt =>
      refine List.pairwise_cons.2 ⟨fun c hc => ?_, hp⟩
      rcases List.mem_cons.1 hc with rfl | hc
      · exact hlt
      · exact Nat.lt_trans hlt (hall c hc)
    · next hge =>
      refine List.pairwise_cons.2 ⟨fun c hc => ?_, ih htl fun c hc => hn c (List.mem_cons_of_mem _ hc)⟩
      rcases Memory.mem_insert m a v c hc with rfl | hc
      · show k < a; omega
      · exact hall c hc

/-- Writing a byte at one of the 65536 addresses keeps the canonical form. -/
theorem Memory.wf_write (m : Memory) (a : Nat) (v : Byte) (ha : a < 65536) (h : m.wf) : (m.write a v).wf := by
  unfold Memory.write
  split
  · exact Memory.wf_erase m a h
  · next hv =>
    have he := Memory.wf_erase m a h
    refine ⟨Memory.pairwise_insert _ a v he.1 (Memory.not_mem_erase m a), fun c hc => ?_⟩
    rcases Memory.mem_insert _ a v c hc with rfl | hc
    · exact ⟨ha, hv⟩
    · exact he.2 c hc

theorem Memory.wf_nil : Memory.wf [] := ⟨List.Pairwise.nil, fun _ h => nomatch h⟩

theorem Memory.wf_foldl (cells : List Host.Cell) : ∀ m : Memory, m.wf →
    Memory.wf (cells.foldl (fun m c => if c.1 < 65536 then Memory.write m c.1 c.2 else m) m) := by
  induction cells with
  | nil => intro m h; exact h
  | cons c cs ih =>
    intro m h
    refine ih _ ?_
    by_cases hlt : c.1 < 65536
    · simpa only [if_pos hlt] using Memory.wf_write m c.1 c.2 hlt h
    · simpa only [if_neg hlt] using h

/-- A memory made of any list of cells has the canonical form. -/
theorem Memory.wf_ofCells (cells : List Host.Cell) : (Memory.ofCells cells).wf :=
  Memory.wf_foldl cells [] Memory.wf_nil

/-- In a memory whose addresses rise, an address below all of them is not listed. -/
theorem Memory.read_of_lt (m : Memory) (a : Nat) (h : ∀ c ∈ m, a < c.1) : m.read a = fillByte := by
  induction m with
  | nil => rfl
  | cons c m ih =>
    obtain ⟨k, b⟩ := c
    have hk : a < k := h (k, b) (List.mem_cons_self ..)
    rw [Memory.read, if_neg (by omega)]
    exact ih fun c hc => h c (List.mem_cons_of_mem _ hc)

/-- Canonical memories that read alike are the same data. -/
theorem Memory.eq_of_read_eq (m : Memory) : ∀ n : Memory, m.wf → n.wf → (∀ a, m.read a = n.read a) → m = n := by
  induction m with
  | nil =>
    intro n _ hn h
    cases n with
    | nil => rfl
    | cons d n =>
      obtain ⟨k, b⟩ := d
      have hb := (hn.2 (k, b) (List.mem_cons_self ..)).2
      have := h k
      simp [Memory.read] at this
      exact absurd this.symm hb
  | cons c m ih =>
    intro n hm hn h
    obtain ⟨k, b⟩ := c
    obtain ⟨hmall, hmtl⟩ := List.pairwise_cons.1 hm.1
    have hb := (hm.2 (k, b) (List.mem_cons_self ..)).2
    cases n with
    | nil =>
      have := h k
      simp [Memory.read] at this
      exact absurd this hb
    | cons d n =>
      obtain ⟨l, e⟩ := d
      obtain ⟨hnall, hntl⟩ := List.pairwise_cons.1 hn.1
      have he := (hn.2 (l, e) (List.mem_cons_self ..)).2
      have hkl : k = l := by
        rcases Nat.lt_trichotomy k l with hlt | heq | hgt
        · exfalso
          have hk := h k
          have hz : Memory.read n k = fillByte := Memory.read_of_lt n k fun c hc => Nat.lt_trans hlt (hnall c hc)
          have hne : l ≠ k := by omega
          simp [Memory.read, hne, hz] at hk
          exact hb hk
        · exact heq
        · exfalso
          have hk := h l
          have hz : Memory.read m l = fillByte := Memory.read_of_lt m l fun c hc => Nat.lt_trans hgt (hmall c hc)
          have hne : k ≠ l := by omega
          simp [Memory.read, hne, hz] at hk
          exact he hk.symm
      subst hkl
      have hbe : b = e := by simpa [Memory.read] using h k
      subst hbe
      have hm' : Memory.wf m := ⟨hmtl, fun c hc => hm.2 c (List.mem_cons_of_mem _ hc)⟩
      have hn' : Memory.wf n := ⟨hntl, fun c hc => hn.2 c (List.mem_cons_of_mem _ hc)⟩
      rw [ih n hm' hn' fun a => ?_]
      by_cases ha : k = a
      · subst ha
        rw [Memory.read_of_lt m k hmall, Memory.read_of_lt n k hnall]
      · have := h a
        simpa [Memory.read, ha] using this

/-! ### Spaces -/

@[simp] theorem Spaces.isUnified_put (sp : Spaces) (q : Space) (m : Memory) : (sp.put q m).isUnified = sp.isUnified := by
  cases sp <;> cases q <;> rfl

@[simp] theorem Spaces.view_put_same (sp : Spaces) (q : Space) (m : Memory) : (sp.put q m).view q = m := by
  cases sp <;> cases q <;> rfl

/-- With one array for both spaces, either space sees what is put in the other. -/
theorem Spaces.view_put_unified (sp : Spaces) (q p : Space) (m : Memory) (h : sp.isUnified = true) :
    (sp.put q m).view p = m := by
  cases sp <;> cases q <;> cases p <;> first | rfl | cases h

/-- With two arrays, a space does not see what is put in the other. -/
theorem Spaces.view_put_split (sp : Spaces) (q p : Space) (m : Memory) (h : sp.isUnified = false) (hpq : p ≠ q) :
    (sp.put q m).view p = sp.view p := by
  cases sp <;> cases q <;> cases p <;> first | rfl | exact absurd rfl hpq | cases h

/-- Putting a canonical array keeps every array canonical. -/
theorem Spaces.wf_put (sp : Spaces) (q : Space) (m : Memory) (h : sp.wf) (hm : m.wf) : (sp.put q m).wf := by
  cases sp <;> cases q <;> first | exact ⟨hm, hm⟩ | exact ⟨hm, h.2⟩ | exact ⟨h.1, hm⟩

theorem Spaces.wf_view (sp : Spaces) (h : sp.wf) : ∀ q, (sp.view q).wf
  | .instr => h.1
  | .data => h.2

end Sys2Proof.Machine
end

