-- ==== Sys2Proof/Laws/Regs.lean ====
section
/-! SUPPORT. The register file: reading after writing. -/

namespace Sys2Proof.Machine

@[simp] theorem Regs.get_r0 (f : Regs) : f.get .r0 = 0#16 := rfl

@[simp] theorem Regs.set_r0 (f : Regs) (v : Word) : f.set .r0 v = f := rfl

theorem Regs.get_set_same (f : Regs) (r : Reg) (v : Word) (h : r ≠ .r0) : (f.set r v).get r = v := by
  cases r <;> first | exact absurd rfl h | rfl

theorem Regs.get_set_other (f : Regs) (r q : Reg) (v : Word) (h : q ≠ r) : (f.set r v).get q = f.get q := by
  cases r <;> cases q <;> first | exact absurd rfl h | rfl

/-- Reading after writing: register 0 reads zero whatever was written (R11). -/
theorem Regs.get_set (f : Regs) (r q : Reg) (v : Word) :
    (f.set r v).get q = if q = r then (if r = .r0 then 0#16 else v) else f.get q := by
  split
  · next h =>
    subst h
    split
    · next h0 => subst h0; rfl
    · next h0 => exact Regs.get_set_same f q v h0
  · next h => exact Regs.get_set_other f r q v h

/-- Two register files that read alike are equal. -/
theorem Regs.ext_get (f g : Regs) (h : ∀ r, f.get r = g.get r) : f = g := by
  obtain ⟨_, _, _, _, _, _, _, _, _, _, _, _, _, _, _⟩ := f
  obtain ⟨_, _, _, _, _, _, _, _, _, _, _, _, _, _, _⟩ := g
  have h1 := h .r1; have h2 := h .r2; have h3 := h .r3; have h4 := h .r4; have h5 := h .r5
  have h6 := h .r6; have h7 := h .r7; have h8 := h .r8; have h9 := h .r9; have h10 := h .r10
  have h11 := h .r11; have h12 := h .r12; have h13 := h .r13; have h14 := h .r14; have h15 := h .r15
  simp only [Regs.get] at h1 h2 h3 h4 h5 h6 h7 h8 h9 h10 h11 h12 h13 h14 h15
  subst h1 h2 h3 h4 h5 h6 h7 h8 h9 h10 h11 h12 h13 h14 h15
  rfl

@[simp] theorem Regs.all_get (v : Word) (r : Reg) (h : r ≠ .r0) : (Regs.all v).get r = v := by
  cases r <;> first | exact absurd rfl h | rfl

end Sys2Proof.Machine
end

