-- ==== Sys2Proof/Laws/State.lean ====
section
/-! SUPPORT. One lemma per field per update of a state, each true by unfolding, and what the accessors read after each
update. -/

namespace Sys2Proof.Machine

/-! ### setX -/

@[simp] theorem State.setX_regs (s : State) (r : Reg) (v : Word) : (s.setX r v).regs = s.regs.set r v := rfl
@[simp] theorem State.setX_pc (s : State) (r : Reg) (v : Word) : (s.setX r v).pc = s.pc := rfl
@[simp] theorem State.setX_ps (s : State) (r : Reg) (v : Word) : (s.setX r v).ps = s.ps := rfl
@[simp] theorem State.setX_pt (s : State) (r : Reg) (v : Word) : (s.setX r v).pt = s.pt := rfl
@[simp] theorem State.setX_tt (s : State) (r : Reg) (v : Word) : (s.setX r v).tt = s.tt := rfl
@[simp] theorem State.setX_mem (s : State) (r : Reg) (v : Word) : (s.setX r v).mem = s.mem := rfl
@[simp] theorem State.setX_absent (s : State) (r : Reg) (v : Word) : (s.setX r v).absent = s.absent := rfl
@[simp] theorem State.setX_unimplemented (s : State) (r : Reg) (v : Word) : (s.setX r v).unimplemented = s.unimplemented := rfl
@[simp] theorem State.setX_run (s : State) (r : Reg) (v : Word) : (s.setX r v).run = s.run := rfl
@[simp] theorem State.setX_envTick (s : State) (r : Reg) (v : Word) : (s.setX r v).envTick = s.envTick := rfl

/-! ### setFlags -/

@[simp] theorem State.setFlags_regs (s : State) (c z : Bool) : (s.setFlags c z).regs = s.regs := rfl
@[simp] theorem State.setFlags_pc (s : State) (c z : Bool) : (s.setFlags c z).pc = s.pc := rfl
@[simp] theorem State.setFlags_ps (s : State) (c z : Bool) : (s.setFlags c z).ps = psWithFlags s.ps c z := rfl
@[simp] theorem State.setFlags_pt (s : State) (c z : Bool) : (s.setFlags c z).pt = s.pt := rfl
@[simp] theorem State.setFlags_tt (s : State) (c z : Bool) : (s.setFlags c z).tt = s.tt := rfl
@[simp] theorem State.setFlags_mem (s : State) (c z : Bool) : (s.setFlags c z).mem = s.mem := rfl
@[simp] theorem State.setFlags_absent (s : State) (c z : Bool) : (s.setFlags c z).absent = s.absent := rfl
@[simp] theorem State.setFlags_unimplemented (s : State) (c z : Bool) : (s.setFlags c z).unimplemented = s.unimplemented := rfl
@[simp] theorem State.setFlags_run (s : State) (c z : Bool) : (s.setFlags c z).run = s.run := rfl
@[simp] theorem State.setFlags_envTick (s : State) (c z : Bool) : (s.setFlags c z).envTick = s.envTick := rfl

/-! ### jump -/

@[simp] theorem State.jump_regs (s : State) (t : Word) : (s.jump t).regs = s.regs := rfl
@[simp] theorem State.jump_pc (s : State) (t : Word) : (s.jump t).pc = t := rfl
@[simp] theorem State.jump_ps (s : State) (t : Word) : (s.jump t).ps = s.ps := rfl
@[simp] theorem State.jump_pt (s : State) (t : Word) : (s.jump t).pt = s.pt := rfl
@[simp] theorem State.jump_tt (s : State) (t : Word) : (s.jump t).tt = s.tt := rfl
@[simp] theorem State.jump_mem (s : State) (t : Word) : (s.jump t).mem = s.mem := rfl
@[simp] theorem State.jump_absent (s : State) (t : Word) : (s.jump t).absent = s.absent := rfl
@[simp] theorem State.jump_unimplemented (s : State) (t : Word) : (s.jump t).unimplemented = s.unimplemented := rfl
@[simp] theorem State.jump_run (s : State) (t : Word) : (s.jump t).run = s.run := rfl
@[simp] theorem State.jump_envTick (s : State) (t : Word) : (s.jump t).envTick = s.envTick := rfl

/-! ### advance -/

@[simp] theorem State.advance_regs (s : State) : s.advance.regs = s.regs := rfl
@[simp] theorem State.advance_pc (s : State) : s.advance.pc = s.pc + 2#16 := rfl
@[simp] theorem State.advance_ps (s : State) : s.advance.ps = s.ps := rfl
@[simp] theorem State.advance_pt (s : State) : s.advance.pt = s.pt := rfl
@[simp] theorem State.advance_tt (s : State) : s.advance.tt = s.tt := rfl
@[simp] theorem State.advance_mem (s : State) : s.advance.mem = s.mem := rfl
@[simp] theorem State.advance_absent (s : State) : s.advance.absent = s.absent := rfl
@[simp] theorem State.advance_unimplemented (s : State) : s.advance.unimplemented = s.unimplemented := rfl
@[simp] theorem State.advance_run (s : State) : s.advance.run = s.run := rfl
@[simp] theorem State.advance_envTick (s : State) : s.advance.envTick = s.envTick := rfl

/-! ### setByte -/

@[simp] theorem State.setByte_regs (s : State) (sp : Space) (a : Word) (v : Byte) : (s.setByte sp a v).regs = s.regs := rfl
@[simp] theorem State.setByte_pc (s : State) (sp : Space) (a : Word) (v : Byte) : (s.setByte sp a v).pc = s.pc := rfl
@[simp] theorem State.setByte_ps (s : State) (sp : Space) (a : Word) (v : Byte) : (s.setByte sp a v).ps = s.ps := rfl
@[simp] theorem State.setByte_pt (s : State) (sp : Space) (a : Word) (v : Byte) : (s.setByte sp a v).pt = s.pt := rfl
@[simp] theorem State.setByte_tt (s : State) (sp : Space) (a : Word) (v : Byte) : (s.setByte sp a v).tt = s.tt := rfl
@[simp] theorem State.setByte_mem (s : State) (sp : Space) (a : Word) (v : Byte) : (s.setByte sp a v).mem = s.mem.put sp ((s.mem.view sp).write a.toNat v) := rfl
@[simp] theorem State.setByte_absent (s : State) (sp : Space) (a : Word) (v : Byte) : (s.setByte sp a v).absent = s.absent := rfl
@[simp] theorem State.setByte_unimplemented (s : State) (sp : Space) (a : Word) (v : Byte) : (s.setByte sp a v).unimplemented = s.unimplemented := rfl
@[simp] theorem State.setByte_run (s : State) (sp : Space) (a : Word) (v : Byte) : (s.setByte sp a v).run = s.run := rfl
@[simp] theorem State.setByte_envTick (s : State) (sp : Space) (a : Word) (v : Byte) : (s.setByte sp a v).envTick = s.envTick := rfl

/-! ### writeFlagged -/

@[simp] theorem State.writeFlagged_regs (s : State) (d : Reg) (r : Flagged) : (s.writeFlagged d r).regs = s.regs.set d r.value := rfl
@[simp] theorem State.writeFlagged_pc (s : State) (d : Reg) (r : Flagged) : (s.writeFlagged d r).pc = s.pc := rfl
@[simp] theorem State.writeFlagged_ps (s : State) (d : Reg) (r : Flagged) : (s.writeFlagged d r).ps = psWithFlags s.ps r.c r.z := rfl
@[simp] theorem State.writeFlagged_pt (s : State) (d : Reg) (r : Flagged) : (s.writeFlagged d r).pt = s.pt := rfl
@[simp] theorem State.writeFlagged_tt (s : State) (d : Reg) (r : Flagged) : (s.writeFlagged d r).tt = s.tt := rfl
@[simp] theorem State.writeFlagged_mem (s : State) (d : Reg) (r : Flagged) : (s.writeFlagged d r).mem = s.mem := rfl
@[simp] theorem State.writeFlagged_absent (s : State) (d : Reg) (r : Flagged) : (s.writeFlagged d r).absent = s.absent := rfl
@[simp] theorem State.writeFlagged_unimplemented (s : State) (d : Reg) (r : Flagged) : (s.writeFlagged d r).unimplemented = s.unimplemented := rfl
@[simp] theorem State.writeFlagged_run (s : State) (d : Reg) (r : Flagged) : (s.writeFlagged d r).run = s.run := rfl
@[simp] theorem State.writeFlagged_envTick (s : State) (d : Reg) (r : Flagged) : (s.writeFlagged d r).envTick = s.envTick := rfl

/-! ### setWord -/

@[simp] theorem State.setWord_regs (s : State) (sp : Space) (a v : Word) : (s.setWord sp a v).regs = s.regs := rfl
@[simp] theorem State.setWord_pc (s : State) (sp : Space) (a v : Word) : (s.setWord sp a v).pc = s.pc := rfl
@[simp] theorem State.setWord_ps (s : State) (sp : Space) (a v : Word) : (s.setWord sp a v).ps = s.ps := rfl
@[simp] theorem State.setWord_pt (s : State) (sp : Space) (a v : Word) : (s.setWord sp a v).pt = s.pt := rfl
@[simp] theorem State.setWord_tt (s : State) (sp : Space) (a v : Word) : (s.setWord sp a v).tt = s.tt := rfl
@[simp] theorem State.setWord_absent (s : State) (sp : Space) (a v : Word) : (s.setWord sp a v).absent = s.absent := rfl
@[simp] theorem State.setWord_unimplemented (s : State) (sp : Space) (a v : Word) : (s.setWord sp a v).unimplemented = s.unimplemented := rfl
@[simp] theorem State.setWord_run (s : State) (sp : Space) (a v : Word) : (s.setWord sp a v).run = s.run := rfl
@[simp] theorem State.setWord_envTick (s : State) (sp : Space) (a v : Word) : (s.setWord sp a v).envTick = s.envTick := rfl

/-! ### envResume -/

@[simp] theorem State.envResume_regs (s : State) (f : Regs) (c z : Bool) (data : List Host.Cell) : (s.envResume f c z data).regs = f := rfl
@[simp] theorem State.envResume_pc (s : State) (f : Regs) (c z : Bool) (data : List Host.Cell) : (s.envResume f c z data).pc = s.pc := rfl
@[simp] theorem State.envResume_ps (s : State) (f : Regs) (c z : Bool) (data : List Host.Cell) : (s.envResume f c z data).ps = psUserMode (psWithFlags s.ps c z) := rfl
@[simp] theorem State.envResume_pt (s : State) (f : Regs) (c z : Bool) (data : List Host.Cell) : (s.envResume f c z data).pt = s.pt := rfl
@[simp] theorem State.envResume_tt (s : State) (f : Regs) (c z : Bool) (data : List Host.Cell) : (s.envResume f c z data).tt = s.tt := rfl
@[simp] theorem State.envResume_mem (s : State) (f : Regs) (c z : Bool) (data : List Host.Cell) : (s.envResume f c z data).mem = s.mem.put .data (Memory.ofCells data) := rfl
@[simp] theorem State.envResume_absent (s : State) (f : Regs) (c z : Bool) (data : List Host.Cell) : (s.envResume f c z data).absent = s.absent := rfl
@[simp] theorem State.envResume_unimplemented (s : State) (f : Regs) (c z : Bool) (data : List Host.Cell) : (s.envResume f c z data).unimplemented = s.unimplemented := rfl
@[simp] theorem State.envResume_run (s : State) (f : Regs) (c z : Bool) (data : List Host.Cell) : (s.envResume f c z data).run = s.run := rfl
@[simp] theorem State.envResume_envTick (s : State) (f : Regs) (c z : Bool) (data : List Host.Cell) : (s.envResume f c z data).envTick = s.envTick + 1 := rfl

/-! ### Accessors -/

@[simp] theorem State.x_r0 (s : State) : s.x .r0 = 0#16 := rfl

/-- A register after a register write (R11). -/
theorem State.x_setX (s : State) (d q : Reg) (v : Word) :
    (s.setX d v).x q = if q = d then (if d = .r0 then 0#16 else v) else s.x q := Regs.get_set s.regs d q v

theorem State.x_setX_other (s : State) (d q : Reg) (v : Word) (h : q ≠ d) : (s.setX d v).x q = s.x q :=
  Regs.get_set_other s.regs d q v h

theorem State.x_setX_same (s : State) (d : Reg) (v : Word) (h : d ≠ .r0) : (s.setX d v).x d = v :=
  Regs.get_set_same s.regs d v h

@[simp] theorem State.x_setFlags (s : State) (c z : Bool) (q : Reg) : (s.setFlags c z).x q = s.x q := rfl
@[simp] theorem State.x_jump (s : State) (t : Word) (q : Reg) : (s.jump t).x q = s.x q := rfl
@[simp] theorem State.x_advance (s : State) (q : Reg) : s.advance.x q = s.x q := rfl
@[simp] theorem State.x_setByte (s : State) (sp : Space) (a : Word) (v : Byte) (q : Reg) :
    (s.setByte sp a v).x q = s.x q := rfl
@[simp] theorem State.x_setWord (s : State) (sp : Space) (a v : Word) (q : Reg) : (s.setWord sp a v).x q = s.x q := rfl

/-- A register after a result with flags (R27). -/
theorem State.x_writeFlagged (s : State) (d q : Reg) (r : Flagged) :
    (s.writeFlagged d r).x q = if q = d then (if d = .r0 then 0#16 else r.value) else s.x q := State.x_setX s d q r.value

@[simp] theorem State.byte_setX (s : State) (r : Reg) (v : Word) (sp : Space) (a : Word) :
    (s.setX r v).byte sp a = s.byte sp a := rfl
@[simp] theorem State.byte_setFlags (s : State) (c z : Bool) (sp : Space) (a : Word) :
    (s.setFlags c z).byte sp a = s.byte sp a := rfl
@[simp] theorem State.byte_jump (s : State) (t : Word) (sp : Space) (a : Word) : (s.jump t).byte sp a = s.byte sp a := rfl
@[simp] theorem State.byte_advance (s : State) (sp : Space) (a : Word) : s.advance.byte sp a = s.byte sp a := rfl
@[simp] theorem State.byte_writeFlagged (s : State) (d : Reg) (r : Flagged) (sp : Space) (a : Word) :
    (s.writeFlagged d r).byte sp a = s.byte sp a := rfl

@[simp] theorem State.k_setX (s : State) (r : Reg) (v : Word) : (s.setX r v).k = s.k := rfl
@[simp] theorem State.k_jump (s : State) (t : Word) : (s.jump t).k = s.k := rfl
@[simp] theorem State.k_advance (s : State) : s.advance.k = s.k := rfl
@[simp] theorem State.k_setByte (s : State) (sp : Space) (a : Word) (v : Byte) : (s.setByte sp a v).k = s.k := rfl
@[simp] theorem State.c_setX (s : State) (r : Reg) (v : Word) : (s.setX r v).c = s.c := rfl
@[simp] theorem State.c_jump (s : State) (t : Word) : (s.jump t).c = s.c := rfl
@[simp] theorem State.c_advance (s : State) : s.advance.c = s.c := rfl
@[simp] theorem State.z_setX (s : State) (r : Reg) (v : Word) : (s.setX r v).z = s.z := rfl
@[simp] theorem State.z_jump (s : State) (t : Word) : (s.jump t).z = s.z := rfl
@[simp] theorem State.z_advance (s : State) : s.advance.z = s.z := rfl

@[simp] theorem State.c_setFlags (s : State) (c z : Bool) : (s.setFlags c z).c = c := psWithFlags_c s.ps c z
@[simp] theorem State.z_setFlags (s : State) (c z : Bool) : (s.setFlags c z).z = z := psWithFlags_z s.ps c z
@[simp] theorem State.k_setFlags (s : State) (c z : Bool) : (s.setFlags c z).k = s.k :=
  psWithFlags_other s.ps c z 15 (by decide) (by decide)
@[simp] theorem State.c_writeFlagged (s : State) (d : Reg) (r : Flagged) : (s.writeFlagged d r).c = r.c :=
  psWithFlags_c s.ps r.c r.z
@[simp] theorem State.z_writeFlagged (s : State) (d : Reg) (r : Flagged) : (s.writeFlagged d r).z = r.z :=
  psWithFlags_z s.ps r.c r.z
@[simp] theorem State.k_writeFlagged (s : State) (d : Reg) (r : Flagged) : (s.writeFlagged d r).k = s.k :=
  psWithFlags_other s.ps r.c r.z 15 (by decide) (by decide)
@[simp] theorem State.k_envResume (s : State) (f : Regs) (c z : Bool) (data : List Host.Cell) :
    (s.envResume f c z data).k = false := psUserMode_k _

/-! ### Reset -/

@[simp] theorem State.reset_pc : State.reset.pc = Config.entryPc := rfl
@[simp] theorem State.reset_ps : State.reset.ps = 0x0000#16 := rfl
@[simp] theorem State.reset_run : State.reset.run = .running := rfl
@[simp] theorem State.reset_mem : State.reset.mem = .unified [] := rfl
@[simp] theorem State.reset_absent : State.reset.absent = [] := rfl
@[simp] theorem State.reset_unimplemented : State.reset.unimplemented = [] := rfl

/-- Reset memory is canonical. -/
theorem State.reset_mem_wf : State.reset.mem.wf := by decide

end Sys2Proof.Machine
end

