-- ==== Sys2Proof/Laws/Ops.lean ====
section
/-! SUPPORT. For each shared operation, one lemma that says everything it can do. -/

namespace Sys2Proof.Machine

/-! ### Bytes and words of memory -/

/-- A byte after a byte write: the byte written is seen in the space written, and in the other one too when the two are
unified; every other byte reads as before. -/
theorem State.byte_setByte (s : State) (sp : Space) (a : Word) (v : Byte) (q : Space) (b : Word) :
    (s.setByte sp a v).byte q b =
      if (q = sp ∨ s.mem.isUnified = true) ∧ b = a then v else s.byte q b := by
  simp only [State.byte, State.setByte_mem]
  by_cases hu : s.mem.isUnified = true
  · rw [Spaces.view_put_unified _ _ _ _ hu, Memory.read_write]
    have hv : ∀ p, s.mem.view p = s.mem.view sp := by
      intro p; revert hu; cases s.mem <;> cases p <;> cases sp <;> simp [Spaces.view, Spaces.isUnified]
    rw [hv q]
    by_cases hb : b = a
    · subst hb; simp [hu]
    · have : b.toNat ≠ a.toNat := fun h => hb (BitVec.eq_of_toNat_eq h)
      simp [hb, this]
  · by_cases hq : q = sp
    · subst hq
      rw [Spaces.view_put_same, Memory.read_write]
      by_cases hb : b = a
      · subst hb; simp
      · have : b.toNat ≠ a.toNat := fun h => hb (BitVec.eq_of_toNat_eq h)
        simp [hb, this]
    · rw [Spaces.view_put_split _ _ _ _ (Bool.eq_false_iff.2 hu) hq]
      simp [hq, hu]

/-- A byte after a word write (R44): the upper half at the address, the lower half at the next. -/
theorem State.byte_setWord (s : State) (sp : Space) (a v : Word) (q : Space) (b : Word) :
    (s.setWord sp a v).byte q b =
      if q = sp ∨ s.mem.isUnified = true then
        (if b = a + 1#16 then loByte v else if b = a then hiByte v else s.byte q b)
      else s.byte q b := by
  rw [State.setWord, State.byte_setByte, State.setByte_mem, Spaces.isUnified_put, State.byte_setByte]
  by_cases h : q = sp ∨ s.mem.isUnified = true
  · simp [h]
  · simp [h]

theorem Word.ne_add_one (a : Word) : a ≠ a + 1#16 := by
  intro h
  exact absurd ((BitVec.add_right_inj a).1 ((BitVec.add_zero a).trans h)) (by decide)

/-- A word reads as it was written (R44, R58). -/
theorem State.word_setWord (s : State) (sp : Space) (a v : Word) : (s.setWord sp a v).word sp a = v := by
  rw [State.word, State.byte_setWord, State.byte_setWord]
  simp [Word.ne_add_one a]

@[simp] theorem State.setWord_mem_isUnified (s : State) (sp : Space) (a v : Word) :
    (s.setWord sp a v).mem.isUnified = s.mem.isUnified := by simp [State.setWord]

/-- A byte write keeps every array canonical. -/
theorem State.wf_setByte (s : State) (sp : Space) (a : Word) (v : Byte) (h : s.mem.wf) : (s.setByte sp a v).mem.wf :=
  Spaces.wf_put _ _ _ h (Memory.wf_write _ _ _ a.isLt (Spaces.wf_view _ h sp))

/-- A word write keeps every array canonical. -/
theorem State.wf_setWord (s : State) (sp : Space) (a v : Word) (h : s.mem.wf) : (s.setWord sp a v).mem.wf :=
  State.wf_setByte _ _ _ _ (State.wf_setByte _ _ _ _ h)

/-- What the environment leaves is canonical. -/
theorem State.wf_envResume (s : State) (f : Regs) (c z : Bool) (data : List Host.Cell) (h : s.mem.wf) :
    (s.envResume f c z data).mem.wf := Spaces.wf_put _ _ _ h (Memory.wf_ofCells data)

/-! ### The memory primitives (R46, R47) -/

/-- The checks of a word access: it passes exactly at an even address where both bytes exist. -/
theorem checkWord_ok (s : State) (a : Word) (u : Unit) :
    checkWord s a = .ok u ↔
      isOdd a = false ∧ s.valid .data a = true ∧ s.valid .data (a + 1#16) = true := by
  unfold checkWord
  cases isOdd a <;> cases s.valid .data a <;> cases s.valid .data (a + 1#16) <;> simp

/-- The stops of a word access, alignment first (R285). -/
theorem checkWord_error (s : State) (a : Word) (f : Fault) :
    checkWord s a = .error f ↔
      (isOdd a = true ∧ f = .misalignedAccess a) ∨
      (isOdd a = false ∧ (s.valid .data a && s.valid .data (a + 1#16)) = false ∧ f = .invalidAddress .data a) := by
  unfold checkWord
  cases isOdd a <;> cases s.valid .data a <;> cases s.valid .data (a + 1#16) <;> simp [eq_comm]

theorem checkByte_ok (s : State) (a : Word) (u : Unit) : checkByte s a = .ok u ↔ s.valid .data a = true := by
  unfold checkByte
  cases s.valid .data a <;> simp

theorem checkByte_error (s : State) (a : Word) (f : Fault) :
    checkByte s a = .error f ↔ s.valid .data a = false ∧ f = .invalidAddress .data a := by
  unfold checkByte
  cases s.valid .data a <;> simp [eq_comm]

theorem memReadWord_ok (s : State) (a v : Word) :
    memReadWord s a = .ok v ↔ checkWord s a = .ok () ∧ v = s.word .data a := by
  unfold memReadWord
  cases checkWord s a <;> simp [eq_comm]

theorem memReadByte_ok (s : State) (a : Word) (v : Byte) :
    memReadByte s a = .ok v ↔ checkByte s a = .ok () ∧ v = s.byte .data a := by
  unfold memReadByte
  cases checkByte s a <;> simp [eq_comm]

theorem memWriteWord_ok (s : State) (a v : Word) (t : State) :
    memWriteWord s a v = .ok t ↔ checkWord s a = .ok () ∧ t = s.setWord .data a v := by
  unfold memWriteWord
  cases checkWord s a <;> simp [eq_comm]

theorem memWriteByte_ok (s : State) (a : Word) (v : Byte) (t : State) :
    memWriteByte s a v = .ok t ↔ checkByte s a = .ok () ∧ t = s.setByte .data a v := by
  unfold memWriteByte
  cases checkByte s a <;> simp [eq_comm]

theorem memReadWord_error (s : State) (a : Word) (f : Fault) :
    memReadWord s a = .error f ↔ checkWord s a = .error f := by
  unfold memReadWord
  cases checkWord s a <;> simp

theorem memReadByte_error (s : State) (a : Word) (f : Fault) :
    memReadByte s a = .error f ↔ checkByte s a = .error f := by
  unfold memReadByte
  cases checkByte s a <;> simp

theorem memWriteWord_error (s : State) (a v : Word) (f : Fault) :
    memWriteWord s a v = .error f ↔ checkWord s a = .error f := by
  unfold memWriteWord
  cases checkWord s a <;> simp

theorem memWriteByte_error (s : State) (a : Word) (v : Byte) (f : Fault) :
    memWriteByte s a v = .error f ↔ checkByte s a = .error f := by
  unfold memWriteByte
  cases checkByte s a <;> simp

/-! ### Ends of an instruction -/

@[simp] theorem finish_ok (t : State) : finish (.ok t) = .next t.advance := rfl
@[simp] theorem finish_error (f : Fault) : finish (.error f) = .fault f := rfl
@[simp] theorem raise_eq (f : Fault) : raise f = .fault f := rfl

/-- An instruction that falls through answers next only when its body does not stop. -/
theorem finish_next (r : Except Fault State) (t : State) :
    finish r = .next t ↔ ∃ u, r = .ok u ∧ t = u.advance := by
  cases r <;> simp [eq_comm]

theorem finish_not_refused (r : Except Fault State) (q : Refusal) : finish r ≠ .refused q := by
  cases r <;> simp

/-- A supervisor-only body runs exactly with K = 1 (R292). -/
theorem privileged_user (i : Instr) (s : State) (body : Outcome) (h : s.k = false) :
    privileged i s body = .fault (.privilegeViolation (encode i)) := by simp [privileged, h]

theorem privileged_supervisor (i : Instr) (s : State) (body : Outcome) (h : s.k = true) :
    privileged i s body = body := by simp [privileged, h]

/-! ### Fetch -/

/-- Fetch answers exactly at an even pc whose two bytes exist (R48, R50). -/
theorem fetchWord_ok (s : State) (w : Word) :
    fetchWord s = .ok w ↔
      isOdd s.pc = false ∧ s.valid .instr s.pc = true ∧ s.valid .instr (s.pc + 1#16) = true ∧
        w = s.word .instr s.pc := by
  unfold fetchWord
  cases isOdd s.pc <;> cases s.valid .instr s.pc <;> cases s.valid .instr (s.pc + 1#16) <;> simp [eq_comm]

/-- An instruction is fetched exactly when a word is and the word decodes to it. -/
theorem fetchInstr_ok (s : State) (i : Instr) :
    fetchInstr s = .ok i ↔ ∃ w, fetchWord s = .ok w ∧ decode w = .ok i := by
  unfold fetchInstr
  cases hw : fetchWord s with
  | error f => simp
  | ok w =>
    cases hd : decode w with
    | ok j => simp [hd]
    | error e => simp [hd]

/-! ### The interrupt call -/

@[simp] theorem State.implements_iff (s : State) (n : BitVec 7) : s.implements n = true ↔ n ∉ s.unimplemented := by
  simp [State.implements]

/-- Everything an interrupt call can do (R240): go on at the next instruction from what the environment left, or end
the run where it is. -/
theorem State.interruptCall_cases (s : State) (n : BitVec 7) :
    (∃ f c z data, s.interruptCall n = (s.envResume f c z data).advance) ∨
    (∃ info, s.interruptCall n = { s with run := .halted info, envTick := s.envTick + 1 }) := by
  unfold State.interruptCall
  split
  · next f c z data _ => exact .inl ⟨f, c, z, data, rfl⟩
  · next info _ => exact .inr ⟨info, rfl⟩

end Sys2Proof.Machine
end

