-- ==== Sys2Proof/Laws/PerInstr.lean ====
section
/-! SUPPORT. Statements about every instruction, one lemma per constructor.

`FitsRow`: the word of an instruction fits the mask and match of its own row of the opcode table (spec/30_encoding.md
R84), and its row stands in the table. -/

namespace Sys2Proof.Laws

/-- A packed word of the primary map fits the row that masks its top four bits. -/
theorem pack4_fits_primary (o a b c : Nibble) : pack4 o a b c &&& 0xf000#16 = pack4 o 0 0 0 := by
  have h : pack4 0xf#4 0 0 0 = 0xf000#16 := by decide
  rw [← h, pack4_and]
  simp [nibble_and_ones]

theorem pack8_fits_primary (o a : Nibble) (i : Byte) : pack8 o a i &&& 0xf000#16 = pack8 o 0 0 := by
  have h : pack8 0xf#4 0 0 = 0xf000#16 := by decide
  rw [← h, pack8_and]
  simp [nibble_and_ones]

/-- A packed word of the secondary map fits the row that masks its top eight bits. -/
theorem pack4_fits_secondary (o a b c : Nibble) : pack4 o a b c &&& 0xff00#16 = pack4 o a 0 0 := by
  have h : pack4 0xf#4 0xf#4 0 0 = 0xff00#16 := by decide
  rw [← h, pack4_and]
  simp [nibble_and_ones]

theorem pack8_fits_secondary (o a : Nibble) (i : Byte) : pack8 o a i &&& 0xff00#16 = pack8 o a 0 := by
  have h : pack8 0xf#4 0xf#4 0 = 0xff00#16 := by decide
  rw [← h, pack8_and]
  simp [nibble_and_ones]

namespace FitsRow

/-- The word of `i` fits the row of `i`, which is a row of the table. -/
def Statement (i : Instr) : Prop := (rowOf i).fits (encode i) = true ∧ rowOf i ∈ opcodeTable

theorem add (d : Reg) (a : Reg) (b : Reg) : Statement (.add d a b) :=
  ⟨by simp only [OpcodeRow.fits, rowOf, encode, pack4_fits_primary]; decide, by simp only [rowOf]; decide⟩

theorem sub (d : Reg) (a : Reg) (b : Reg) : Statement (.sub d a b) :=
  ⟨by simp only [OpcodeRow.fits, rowOf, encode, pack4_fits_primary]; decide, by simp only [rowOf]; decide⟩

theorem rol (d : Reg) (a : Reg) (n : Nibble) : Statement (.rol d a n) :=
  ⟨by simp only [OpcodeRow.fits, rowOf, encode, pack4_fits_primary]; decide, by simp only [rowOf]; decide⟩

theorem ror (d : Reg) (a : Reg) (n : Nibble) : Statement (.ror d a n) :=
  ⟨by simp only [OpcodeRow.fits, rowOf, encode, pack4_fits_primary]; decide, by simp only [rowOf]; decide⟩

theorem and (d : Reg) (a : Reg) (b : Reg) : Statement (.and d a b) :=
  ⟨by simp only [OpcodeRow.fits, rowOf, encode, pack4_fits_primary]; decide, by simp only [rowOf]; decide⟩

theorem or (d : Reg) (a : Reg) (b : Reg) : Statement (.or d a b) :=
  ⟨by simp only [OpcodeRow.fits, rowOf, encode, pack4_fits_primary]; decide, by simp only [rowOf]; decide⟩

theorem ld (d : Reg) (n : Nibble) (a : Reg) : Statement (.ld d n a) :=
  ⟨by simp only [OpcodeRow.fits, rowOf, encode, pack4_fits_primary]; decide, by simp only [rowOf]; decide⟩

theorem sethi (d : Reg) (i : Byte) : Statement (.sethi d i) :=
  ⟨by simp only [OpcodeRow.fits, rowOf, encode, pack8_fits_primary]; decide, by simp only [rowOf]; decide⟩

theorem sl (d : Reg) (a : Reg) (n : Nibble) : Statement (.sl d a n) :=
  ⟨by simp only [OpcodeRow.fits, rowOf, encode, pack4_fits_primary]; decide, by simp only [rowOf]; decide⟩

theorem sr (d : Reg) (a : Reg) (n : Nibble) : Statement (.sr d a n) :=
  ⟨by simp only [OpcodeRow.fits, rowOf, encode, pack4_fits_primary]; decide, by simp only [rowOf]; decide⟩

theorem srl (d : Reg) (a : Reg) (n : Nibble) : Statement (.srl d a n) :=
  ⟨by simp only [OpcodeRow.fits, rowOf, encode, pack4_fits_primary]; decide, by simp only [rowOf]; decide⟩

theorem xor (d : Reg) (a : Reg) (b : Reg) : Statement (.xor d a b) :=
  ⟨by simp only [OpcodeRow.fits, rowOf, encode, pack4_fits_primary]; decide, by simp only [rowOf]; decide⟩

theorem jal (d : Reg) (a : Reg) (b : Reg) : Statement (.jal d a b) :=
  ⟨by simp only [OpcodeRow.fits, rowOf, encode, pack4_fits_primary]; decide, by simp only [rowOf]; decide⟩

theorem st (d : Reg) (n : Nibble) (a : Reg) : Statement (.st d n a) :=
  ⟨by simp only [OpcodeRow.fits, rowOf, encode, pack4_fits_primary]; decide, by simp only [rowOf]; decide⟩

theorem movbImm (d : Reg) (i : Byte) : Statement (.movbImm d i) :=
  ⟨by simp only [OpcodeRow.fits, rowOf, encode, pack8_fits_primary]; decide, by simp only [rowOf]; decide⟩

theorem not (d : Reg) (a : Reg) : Statement (.not d a) :=
  ⟨by simp only [OpcodeRow.fits, rowOf, encode, pack4_fits_secondary]; decide, by simp only [rowOf]; decide⟩

theorem cmp (d : Reg) (a : Reg) : Statement (.cmp d a) :=
  ⟨by simp only [OpcodeRow.fits, rowOf, encode, pack4_fits_secondary]; decide, by simp only [rowOf]; decide⟩

theorem ldb (d : Reg) (a : Reg) : Statement (.ldb d a) :=
  ⟨by simp only [OpcodeRow.fits, rowOf, encode, pack4_fits_secondary]; decide, by simp only [rowOf]; decide⟩

theorem stb (d : Reg) (a : Reg) : Statement (.stb d a) :=
  ⟨by simp only [OpcodeRow.fits, rowOf, encode, pack4_fits_secondary]; decide, by simp only [rowOf]; decide⟩

theorem lds (d : Reg) (n : Nibble) : Statement (.lds d n) :=
  ⟨by simp only [OpcodeRow.fits, rowOf, encode, pack4_fits_secondary]; decide, by simp only [rowOf]; decide⟩

theorem sts (d : Reg) (n : Nibble) : Statement (.sts d n) :=
  ⟨by simp only [OpcodeRow.fits, rowOf, encode, pack4_fits_secondary]; decide, by simp only [rowOf]; decide⟩

theorem bl (i : Byte) : Statement (.bl i) :=
  ⟨by simp only [OpcodeRow.fits, rowOf, encode, pack8_fits_secondary]; decide, by simp only [rowOf]; decide⟩

theorem be (i : Byte) : Statement (.be i) :=
  ⟨by simp only [OpcodeRow.fits, rowOf, encode, pack8_fits_secondary]; decide, by simp only [rowOf]; decide⟩

theorem bne (i : Byte) : Statement (.bne i) :=
  ⟨by simp only [OpcodeRow.fits, rowOf, encode, pack8_fits_secondary]; decide, by simp only [rowOf]; decide⟩

theorem bge (i : Byte) : Statement (.bge i) :=
  ⟨by simp only [OpcodeRow.fits, rowOf, encode, pack8_fits_secondary]; decide, by simp only [rowOf]; decide⟩

theorem bg (i : Byte) : Statement (.bg i) :=
  ⟨by simp only [OpcodeRow.fits, rowOf, encode, pack8_fits_secondary]; decide, by simp only [rowOf]; decide⟩

theorem b (i : Byte) : Statement (.b i) :=
  ⟨by simp only [OpcodeRow.fits, rowOf, encode, pack8_fits_secondary]; decide, by simp only [rowOf]; decide⟩

theorem int (m : BitVec 7) : Statement (.int m) :=
  ⟨by
    show (pack8 0xf#4 0xc#4 (m.setWidth 8) &&& 0xff80#16 == 0xfc00#16) = true
    revert m; decide, by simp only [rowOf]; decide⟩

theorem subi (d : Reg) (n : Nibble) : Statement (.subi d n) :=
  ⟨by simp only [OpcodeRow.fits, rowOf, encode, pack4_fits_secondary]; decide, by simp only [rowOf]; decide⟩

theorem addi (d : Reg) (n : Nibble) : Statement (.addi d n) :=
  ⟨by simp only [OpcodeRow.fits, rowOf, encode, pack4_fits_secondary]; decide, by simp only [rowOf]; decide⟩

theorem nop : Statement (.nop) :=
  ⟨by decide, by decide⟩

theorem iret : Statement (.iret) :=
  ⟨by decide, by decide⟩

end FitsRow

end Sys2Proof.Laws
end

