-- ==== Sys2Proof/Laws/Step.lean ====
section
/-! SUPPORT. What a step and an instruction can do, said once. -/

namespace Sys2Proof.Machine

/-- Everything a step that answers next can do: nothing, after the end of a run, or the instruction it fetched. -/
theorem step_next (s t : State) :
    step s = .next t ↔
      ((∃ info, s.run = .halted info) ∧ t = s) ∨
      (s.run = .running ∧ ∃ i, fetchInstr s = .ok i ∧ exec i s = .next t) := by
  unfold step
  cases hr : s.run with
  | halted info => simp [eq_comm]
  | running =>
    cases hf : fetchInstr s with
    | ok i => simp
    | error f => simp

theorem branchIf_next (cond : Bool) (d : Byte) (s t : State) :
    branchIf cond d s = .next t ↔ t = if cond then s.jump (s.branchTarget d) else s.advance := by
  simp [branchIf, eq_comm]

/-- Everything `int` can do: the call, or the stop at a number the environment does not implement. -/
theorem execInt_cases (n : BitVec 7) (s : State) :
    (s.implements n = true ∧ execInt n s = .next (s.interruptCall n)) ∨
    (s.implements n = false ∧ execInt n s = .fault (.unspecified (unimplementedInterrupt n))) := by
  unfold execInt
  cases h : s.implements n <;> simp

/-- Everything an instruction that answers next can do to the state. -/
inductive Effect (s : State) : State → Prop where
  /-- A register written, then the next instruction. -/
  | reg (d : Reg) (v : Word) : Effect s (s.setX d v).advance
  /-- A register and the flags written, then the next instruction. -/
  | flagged (d : Reg) (r : Flagged) : Effect s (s.writeFlagged d r).advance
  /-- The flags written, then the next instruction. -/
  | flags (c z : Bool) : Effect s (s.setFlags c z).advance
  /-- A word stored at an even address that exists, then the next instruction. -/
  | word (a v : Word) (h : checkWord s a = .ok ()) : Effect s (s.setWord .data a v).advance
  /-- A byte stored at an address that exists, then the next instruction. -/
  | byte (a : Word) (v : Byte) (h : checkByte s a = .ok ()) : Effect s (s.setByte .data a v).advance
  /-- Nothing but the next instruction. -/
  | fallThrough : Effect s s.advance
  /-- A taken short branch. -/
  | branch (d : Byte) : Effect s (s.jump (s.branchTarget d))
  /-- A jump with a link. -/
  | jal (rret roff raddr : Reg) : Effect s ((s.setX rret s.link).jump (s.jalTarget raddr roff))
  /-- An interrupt call. -/
  | call (n : BitVec 7) (h : s.implements n = true) : Effect s (s.interruptCall n)

theorem Effect.of_branchIf {cond : Bool} {d : Byte} {s t : State} (h : branchIf cond d s = .next t) : Effect s t := by
  rw [branchIf_next] at h
  subst h
  cases cond
  · exact .fallThrough
  · exact .branch d

/-- Every instruction's next state is one of these effects. -/
theorem exec_effect (i : Instr) (s t : State) (h : exec i s = .next t) : Effect s t := by
  cases i with
  | add d a b => cases h; exact .flagged d _
  | sub d a b => cases h; exact .flagged d _
  | rol d a n => cases h; exact .flagged d _
  | ror d a n => cases h; exact .flagged d _
  | sl d a n => cases h; exact .flagged d _
  | sr d a n => cases h; exact .flagged d _
  | srl d a n => cases h; exact .flagged d _
  | addi d n => cases h; exact .flagged d _
  | subi d n => cases h; exact .flagged d _
  | cmp a b => cases h; exact .flags _ _
  | and d a b => cases h; exact .reg d _
  | or d a b => cases h; exact .reg d _
  | xor d a b => cases h; exact .reg d _
  | not d a => cases h; exact .reg d _
  | sethi d i => cases h; exact .reg d _
  | movbImm d i => cases h; exact .reg d _
  | ld d off a =>
    obtain ⟨u, hu, rfl⟩ := (finish_next _ _).1 h
    cases hr : memReadWord s (s.wordAddr a off) with
    | ok v => rw [hr] at hu; cases hu; exact .reg d _
    | error f => rw [hr] at hu; cases hu
  | ldb d a =>
    obtain ⟨u, hu, rfl⟩ := (finish_next _ _).1 h
    cases hr : memReadByte s (s.byteAddr a) with
    | ok v => rw [hr] at hu; cases hu; exact .reg d _
    | error f => rw [hr] at hu; cases hu
  | st r off a =>
    obtain ⟨u, hu, rfl⟩ := (finish_next _ _).1 h
    obtain ⟨hc, rfl⟩ := (memWriteWord_ok _ _ _ _).1 hu
    exact .word _ _ hc
  | stb r a =>
    obtain ⟨u, hu, rfl⟩ := (finish_next _ _).1 h
    obtain ⟨hc, rfl⟩ := (memWriteByte_ok _ _ _ _).1 hu
    exact .byte _ _ hc
  | lds d n =>
    change privileged _ s _ = _ at h
    cases hk : s.k with
    | false => rw [privileged_user _ _ _ hk] at h; cases h
    | true =>
      rw [privileged_supervisor _ _ _ hk] at h
      cases hn : SysReg.ofField n with
      | none => rw [hn] at h; cases h
      | some r => rw [hn] at h; cases h; exact .reg d _
  | sts r n =>
    change privileged _ s _ = _ at h
    cases hk : s.k with
    | false => rw [privileged_user _ _ _ hk] at h; cases h
    | true =>
      rw [privileged_supervisor _ _ _ hk] at h
      cases hn : SysReg.ofField n with
      | none => rw [hn] at h; cases h
      | some q => rw [hn] at h; cases h
  | iret =>
    change privileged _ s _ = _ at h
    cases hk : s.k with
    | false => rw [privileged_user _ _ _ hk] at h; cases h
    | true => rw [privileged_supervisor _ _ _ hk] at h; cases h
  | bl d => exact Effect.of_branchIf h
  | be d => exact Effect.of_branchIf h
  | bne d => exact Effect.of_branchIf h
  | bge d => exact Effect.of_branchIf h
  | bg d => exact Effect.of_branchIf h
  | b d => exact Effect.of_branchIf h
  | jal r o a => cases h; exact .jal r o a
  | int n =>
    change execInt n s = _ at h
    rcases execInt_cases n s with ⟨hi, e⟩ | ⟨_, e⟩ <;> rw [e] at h <;> cases h
    exact .call n hi
  | nop => cases h; exact .fallThrough

/-- No instruction is refused: every one has its meaning. -/
theorem exec_not_refused (i : Instr) (s : State) (q : Refusal) : exec i s ≠ .refused q := by
  intro h
  cases i with
  | ld d off a => exact finish_not_refused _ _ h
  | ldb d a => exact finish_not_refused _ _ h
  | st r off a => exact finish_not_refused _ _ h
  | stb r a => exact finish_not_refused _ _ h
  | lds d n =>
    change privileged _ s _ = _ at h
    unfold privileged at h
    split at h
    · split at h <;> cases h
    · cases h
  | sts r n =>
    change privileged _ s _ = _ at h
    unfold privileged at h
    split at h
    · split at h <;> cases h
    · cases h
  | iret =>
    change privileged _ s _ = _ at h
    unfold privileged at h
    split at h <;> cases h
  | int n =>
    change execInt n s = _ at h
    rcases execInt_cases n s with ⟨_, e⟩ | ⟨_, e⟩ <;> rw [e] at h <;> cases h
  | _ => cases h

end Sys2Proof.Machine
end

