-- ==== Sys2Proof/Tests/Slice0.lean ====
section
/-! SUPPORT. Tests on fixed values. The expected values are those of spec/95_test_vectors.md (the vector is named in the
comment) or of the examples in the rules, never the model's own answers. At the end, for every statement with
hypotheses, a theorem that shows concrete values meeting them. -/

namespace Sys2Proof.Tests

open Sys2Proof.Machine Sys2Proof.Safety Sys2Proof.Asm

/-! ### Helpers -/

/-- The reset state with registers, flags and bytes set and a word at the pc. -/
def start (w : Nat) (xs : List (Reg × Word)) (c z : Bool := false) (d : List (Word × Byte) := []) : State :=
  let s := xs.foldl (fun s p => s.setX p.1 p.2) (State.reset.setFlags c z)
  (d.foldl (fun s p => s.setByte .data p.1 p.2) s).withFetchWord 16 w

/-- The same in supervisor mode. -/
def startK (w : Nat) : State := { start w [] with ps := 0x80c0#16, pt := 0x1111#16, tt := 0x2222#16 }

/-- The same with separate spaces: the word in instruction space, data space as given. -/
def startSplit (w : Nat) : State := { State.reset with mem := .split [] [] }.withFetchWord 16 w

/-- What the next state holds. -/
def got {α : Type} (o : Outcome) (f : State → α) : Option α :=
  match o with
  | .next t => some (f t)
  | _ => none

/-- The fault of a stop. -/
def stop (o : Outcome) : Option Fault :=
  match o with
  | .fault f => some f
  | _ => none

/-- C and Z. -/
def cz (s : State) : Bool × Bool := (s.c, s.z)

/-- What a word decodes to. -/
def dec (w : Word) : Option Instr :=
  match decode w with
  | .ok i => some i
  | .error _ => none

/-- A line's words. -/
def asm (m : Mnemonic) (ops : List Operand) (here : Word := 0x0100#16) : Option (List Word) :=
  assembleWords { symbols := [("f", 0x0200), ("v", 0x2000), ("w", 0x2001)], here := here } m ops

/-! ### WellFormed -/

theorem test_wellFormed_refuses_lds_of_a_missing_register : wellFormed (.lds .r1 9#4) = false := by decide
theorem test_wellFormed_refuses_sts_of_a_missing_register : wellFormed (.sts .r1 4#4) = false := by decide
theorem test_wellFormed_accepts_registers_that_exist :
    wellFormed (.lds .r1 3#4) = true ∧ wellFormed (.sts .r1 0#4) = true ∧ wellFormed (.add .r3 .r1 .r2) = true := by
  decide

/-! ### Decoding: one word per instruction (95_test_vectors.md 2.1) -/

theorem test_decode_add : dec 0x0312#16 = some (.add .r3 .r1 .r2) := by decide
theorem test_decode_sub : dec 0x1312#16 = some (.sub .r3 .r1 .r2) := by decide
theorem test_decode_rol : dec 0x2214#16 = some (.rol .r2 .r1 4#4) := by decide
theorem test_decode_ror : dec 0x3214#16 = some (.ror .r2 .r1 4#4) := by decide
theorem test_decode_and : dec 0x4312#16 = some (.and .r3 .r1 .r2) := by decide
theorem test_decode_or : dec 0x5403#16 = some (.or .r4 .r0 .r3) := by decide
theorem test_decode_ld : dec 0x6223#16 = some (.ld .r2 2#4 .r3) := by decide
theorem test_decode_sethi : dec 0x7112#16 = some (.sethi .r1 0x12#8) := by decide
theorem test_decode_sl : dec 0x8214#16 = some (.sl .r2 .r1 4#4) := by decide
theorem test_decode_sr : dec 0x9214#16 = some (.sr .r2 .r1 4#4) := by decide
theorem test_decode_srl : dec 0xa214#16 = some (.srl .r2 .r1 4#4) := by decide
theorem test_decode_xor : dec 0xb312#16 = some (.xor .r3 .r1 .r2) := by decide
theorem test_decode_jal : dec 0xce21#16 = some (.jal .r14 .r2 .r1) := by decide
theorem test_decode_st : dec 0xd21d#16 = some (.st .r2 1#4 .r13) := by decide
theorem test_decode_movb_imm : dec 0xe134#16 = some (.movbImm .r1 0x34#8) := by decide
theorem test_decode_not : dec 0xf021#16 = some (.not .r2 .r1) := by decide
theorem test_decode_cmp : dec 0xf112#16 = some (.cmp .r1 .r2) := by decide
theorem test_decode_ldb : dec 0xf212#16 = some (.ldb .r1 .r2) := by decide
theorem test_decode_stb : dec 0xf312#16 = some (.stb .r1 .r2) := by decide
theorem test_decode_lds : dec 0xf411#16 = some (.lds .r1 1#4) := by decide
theorem test_decode_sts : dec 0xf513#16 = some (.sts .r1 3#4) := by decide
theorem test_decode_bl : dec 0xf607#16 = some (.bl 7#8) := by decide
theorem test_decode_be : dec 0xf7fb#16 = some (.be 0xfb#8) := by decide
theorem test_decode_bne : dec 0xf8fd#16 = some (.bne 0xfd#8) := by decide
theorem test_decode_bge : dec 0xf907#16 = some (.bge 7#8) := by decide
theorem test_decode_bg : dec 0xfa01#16 = some (.bg 1#8) := by decide
theorem test_decode_b : dec 0xfbff#16 = some (.b 0xff#8) := by decide
theorem test_decode_int : dec 0xfc7f#16 = some (.int 127#7) := by decide
theorem test_decode_subi : dec 0xfdd2#16 = some (.subi .r13 2#4) := by decide
theorem test_decode_addi : dec 0xfed2#16 = some (.addi .r13 2#4) := by decide
theorem test_decode_nop : dec 0xfff0#16 = some .nop := by decide
theorem test_decode_iret : dec 0xffff#16 = some .iret := by decide
theorem test_decode_missing_system_register : dec 0xf419#16 = some (.lds .r1 9#4) := by decide
theorem test_decode_unassigned :
    [0xfc80#16, 0xfcff#16, 0xff00#16, 0xffef#16, 0xfff1#16, 0xfffe#16].map dec = List.replicate 6 none := by decide
theorem test_decodeTableWord :
    decodeTableWord 16 0x0312 = some (.add .r3 .r1 .r2) ∧ decodeTableWord 16 0xffff = some .iret ∧
      decodeTableWord 16 0xff00 = none := by decide

/-! ### Move, load, store (2.2) -/

-- M1
theorem test_sethi : got (step (start 0x7112 [(.r1, 0xabcd#16)] true true)) (fun t => (t.x .r1, cz t, t.pc)) =
    some (0x1200#16, (true, true), 0x0102#16) := by decide
-- M2
theorem test_sethi_r0 : got (step (start 0x7012 [])) (fun t => t.regs) = some State.reset.regs := by decide
-- M3, M4
theorem test_movb_imm : got (step (start 0xe134 [(.r1, 0x1200#16)])) (fun t => t.x .r1) = some 0x1234#16 := by decide
theorem test_movb_imm_keeps_upper : got (step (start 0xe1ff [(.r1, 0xabcd#16)])) (fun t => t.x .r1) = some 0xabff#16 := by
  decide
-- M7: the address wraps; M8: the address is the old register
theorem test_ld_wraps : got (step (start 0x62f3 [(.r3, 0xfff0#16)] (d := [(0x000e#16, 0x11#8), (0x000f#16, 0x22#8)])))
    (fun t => t.x .r2) = some 0x1122#16 := by decide
theorem test_ld_base_is_destination : got (step (start 0x6303 [(.r3, 0x1000#16)] (d := [(0x1000#16, 0x20#8)])))
    (fun t => t.x .r3) = some 0x2000#16 := by decide
-- M10
theorem test_ld_odd : stop (step (start 0x6203 [(.r3, 0x1001#16)])) = some (.misalignedAccess 0x1001#16) := by decide
-- M11
theorem test_st : got (step (start 0xd21d [(.r2, 0x1234#16), (.r13, 0x7ffc#16)] (d := [(0x7ffd#16, 0xaa#8), (0x8000#16, 0xbb#8)])))
    (fun t => [0x7ffd#16, 0x7ffe#16, 0x7fff#16, 0x8000#16].map (t.byte .data)) = some [0xaa#8, 0x12#8, 0x34#8, 0xbb#8] := by
  decide
-- M12: storing %0 clears a word
theorem test_st_r0 : got (step (start 0xd001 [(.r1, 0x2000#16)] (d := [(0x2000#16, 0xff#8), (0x2001#16, 0xff#8)])))
    (fun t => t.word .data 0x2000#16) = some 0#16 := by decide
-- M14, M16
theorem test_ldb_keeps_upper : got (step (start 0xf212 [(.r1, 0xaa55#16), (.r2, 0x2001#16)] (d := [(0x2001#16, 0x7f#8)])))
    (fun t => t.x .r1) = some 0xaa7f#16 := by decide
theorem test_ldb_base_is_destination : got (step (start 0xf211 [(.r1, 0x2001#16)] (d := [(0x2001#16, 0x99#8)])))
    (fun t => t.x .r1) = some 0x2099#16 := by decide
-- M17
theorem test_stb : got (step (start 0xf312 [(.r1, 0x1234#16), (.r2, 0x2001#16)] (d := [(0x2000#16, 0xee#8), (0x2002#16, 0xee#8)])))
    (fun t => [0x2000#16, 0x2001#16, 0x2002#16].map (t.byte .data)) = some [0xee#8, 0x34#8, 0xee#8] := by decide
-- M18, M20: privilege before the register number
theorem test_lds_user : stop (step (start 0xf411 [])) = some (.privilegeViolation 0xf411#16) := by decide
theorem test_lds_user_missing_register : stop (step (start 0xf419 [])) = some (.privilegeViolation 0xf419#16) := by decide
-- M19; R109
theorem test_sts_user : stop (step (start 0xf513 [])) = some (.privilegeViolation 0xf513#16) := by decide
theorem test_sts_supervisor : stop (step (startK 0xf513)) = some (.unspecified "sts in supervisor mode") := by decide
-- R108: the pc reads as the address of the lds itself
theorem test_lds_supervisor : got (step (startK 0xf410)) (fun t => t.x .r1) = some 0x0100#16 ∧
    got (step (startK 0xf411)) (fun t => t.x .r1) = some 0x80c0#16 ∧
    got (step (startK 0xf412)) (fun t => t.x .r1) = some 0x1111#16 ∧
    got (step (startK 0xf413)) (fun t => t.x .r1) = some 0x2222#16 ∧
    stop (step (startK 0xf414)) = some (.unspecified "system register number > 3") := by decide

/-! ### Add, subtract, compare (2.3) -/

-- A1, A7
theorem test_add : got (step (start 0x0312 [(.r1, 0xffff#16), (.r2, 2#16)])) (fun t => (t.x .r3, cz t)) =
    some (1#16, (true, false)) := by decide
theorem test_add_r0_writes_flags : got (step (start 0x0012 [(.r1, 0xffff#16), (.r2, 1#16)])) (fun t => (t.x .r0, cz t)) =
    some (0#16, (true, true)) := by decide
-- A8, A9
theorem test_addi : got (step (start 0xfe1f [(.r1, 0xfff1#16)])) (fun t => (t.x .r1, cz t)) =
    some (0#16, (true, true)) := by decide
theorem test_addi_zero : got (step (start 0xfe10 [] true)) (fun t => (t.x .r1, cz t)) = some (0#16, (false, true)) := by
  decide
-- A11, A15
theorem test_sub : got (step (start 0x1312 [(.r1, 3#16), (.r2, 5#16)])) (fun t => (t.x .r3, cz t)) =
    some (0xfffe#16, (true, false)) := by decide
theorem test_sub_negates : got (step (start 0x1101 [(.r1, 0x8000#16)])) (fun t => (t.x .r1, cz t)) =
    some (0x8000#16, (true, false)) := by decide
-- A16, A19
theorem test_subi : got (step (start 0xfd11 [(.r1, 1#16)])) (fun t => (t.x .r1, cz t)) = some (0#16, (false, true)) := by
  decide
theorem test_subi_r0 : got (step (start 0xfd05 [])) (fun t => (t.x .r0, cz t)) = some (0#16, (true, false)) := by decide
-- A21, A22
theorem test_cmp_exact : got (step (start 0xf112 [(.r1, 0x8000#16), (.r2, 1#16)])) cz = some (true, false) := by decide
theorem test_cmp_greater : got (step (start 0xf112 [(.r1, 0x7fff#16), (.r2, 0x8000#16)])) cz = some (false, false) := by
  decide

/-! ### Logic (2.4) -/

-- L1, L7
theorem test_and : got (step (start 0x4312 [(.r1, 0xf0f0#16), (.r2, 0x3c3c#16)] true true)) (fun t => (t.x .r3, cz t)) =
    some (0x3030#16, (true, true)) := by decide
theorem test_and_r0 : got (step (start 0x4012 [(.r1, 0xffff#16), (.r2, 0xffff#16)])) (fun t => (t.x .r0, cz t)) =
    some (0#16, (false, false)) := by decide
-- L2, M5
theorem test_or : got (step (start 0x5312 [(.r1, 0xf0f0#16), (.r2, 0x3c3c#16)] true true)) (fun t => (t.x .r3, cz t)) =
    some (0xfcfc#16, (true, true)) := by decide
theorem test_or_moves : got (step (start 0x5403 [(.r3, 0xbeef#16)] true false)) (fun t => (t.x .r4, cz t)) =
    some (0xbeef#16, (true, false)) := by decide
-- L3, L4
theorem test_xor : got (step (start 0xb312 [(.r1, 0xf0f0#16), (.r2, 0x3c3c#16)] true true)) (fun t => (t.x .r3, cz t)) =
    some (0xcccc#16, (true, true)) := by decide
theorem test_xor_leaves_z : got (step (start 0xb111 [(.r1, 0x1234#16)] true false)) (fun t => (t.x .r1, cz t)) =
    some (0#16, (true, false)) := by decide
-- L5, L6
theorem test_not : got (step (start 0xf021 [(.r1, 0x00ff#16)] true true)) (fun t => (t.x .r2, cz t)) =
    some (0xff00#16, (true, true)) := by decide
theorem test_not_r0 : got (step (start 0xf010 [])) (fun t => t.x .r1) = some 0xffff#16 := by decide

/-! ### Rotate and shift (2.5) -/

/-- The results of the five on one value and count, in the table's order. -/
def five (v : Word) (n : Nibble) : List Word :=
  [shiftResult .rol v n, shiftResult .ror v n, shiftResult .sl v n, shiftResult .sr v n, shiftResult .srl v n]

/-- C of the five under the default SHIFT_C. -/
def fiveC (v : Word) (n : Nibble) : List Bool :=
  [shiftCDefault .rol v n true, shiftCDefault .ror v n true, shiftCDefault .sl v n true, shiftCDefault .sr v n true,
   shiftCDefault .srl v n true]

theorem test_shift_table_8234 : five 0x8234#16 4#4 = [0x2348#16, 0x4823#16, 0x2340#16, 0xf823#16, 0x0823#16] ∧
    fiveC 0x8234#16 4#4 = [false, false, false, false, false] := by decide
theorem test_shift_table_8001 : five 0x8001#16 0#4 = List.replicate 5 0x8001#16 ∧
    five 0x8001#16 15#4 = [0xc000#16, 0x0003#16, 0x8000#16, 0xffff#16, 0x0001#16] ∧
    fiveC 0x8001#16 0#4 = List.replicate 5 false ∧ fiveC 0x8001#16 1#4 = List.replicate 5 true ∧
    fiveC 0x8001#16 15#4 = List.replicate 5 false := by decide
theorem test_shift_table_4000 : five 0x4000#16 2#4 = [0x0001#16, 0x1000#16, 0x0000#16, 0x1000#16, 0x1000#16] ∧
    fiveC 0x4000#16 2#4 = [true, false, true, false, false] := by decide
theorem test_rol : got (step (start 0x2214 [(.r1, 0x1234#16)])) (fun t => t.x .r2) = some 0x2341#16 := by decide
theorem test_rol_swaps_bytes : got (step (start 0x2218 [(.r1, 0x12ab#16)])) (fun t => t.x .r2) = some 0xab12#16 := by decide
theorem test_ror : got (step (start 0x3214 [(.r1, 0x1234#16)])) (fun t => t.x .r2) = some 0x4123#16 := by decide
theorem test_sl : got (step (start 0x8214 [(.r1, 0x1234#16)])) (fun t => t.x .r2) = some 0x2340#16 := by decide
theorem test_sl_zero_flag (c : Bool) : (shiftFlags .sl 0x4000#16 2#4 c).z = true ∧ (shiftFlags .sl 0x8001#16 1#4 c).z = false :=
  ⟨rfl, rfl⟩
theorem test_sr : got (step (start 0x9211 [(.r1, 0xfffd#16)])) (fun t => t.x .r2) = some 0xfffe#16 := by decide
theorem test_srl : got (step (start 0xa214 [(.r1, 0x8234#16)])) (fun t => t.x .r2) = some 0x0823#16 := by decide

/-! ### Branches (2.6): the next pc for C, Z = 00, 01, 10, 11 -/

/-- The next pc for each flag combination. -/
def nextPcs (w : Nat) : List (Option Word) :=
  [got (step (start w [] false false)) State.pc, got (step (start w [] false true)) State.pc,
   got (step (start w [] true false)) State.pc, got (step (start w [] true true)) State.pc]

theorem test_bl : nextPcs 0xf607 = [some 0x0102#16, some 0x0102#16, some 0x0110#16, some 0x0110#16] := by decide
theorem test_be : nextPcs 0xf7fb = [some 0x0102#16, some 0x00f8#16, some 0x0102#16, some 0x00f8#16] := by decide
theorem test_bne : nextPcs 0xf8fd = [some 0x00fc#16, some 0x0102#16, some 0x00fc#16, some 0x0102#16] := by decide
theorem test_bge : nextPcs 0xf907 = [some 0x0110#16, some 0x0110#16, some 0x0102#16, some 0x0102#16] := by decide
theorem test_bg : nextPcs 0xfa01 = [some 0x0104#16, some 0x0102#16, some 0x0102#16, some 0x0102#16] := by decide
theorem test_b : nextPcs 0xfbff = List.replicate 4 (some 0x0100#16) := by decide
theorem test_b_range_and_wrap :
    ({ start 0 [] with pc := 0xfffe#16 }).branchTarget 0x7f#8 = 0x00fe#16 ∧
    ({ start 0 [] with pc := 0x0000#16 }).branchTarget 0x80#8 = 0xff02#16 ∧
    (start 0 []).branchTarget 0x7f#8 = 0x0200#16 ∧ (start 0 []).branchTarget 0x80#8 = 0x0002#16 := by decide

/-! ### Jump and link (2.7) -/

-- J1, J2
theorem test_jal : got (step (start 0xce21 [(.r1, 0x0200#16), (.r2, 0x0010#16)])) (fun t => (t.x .r14, t.pc)) =
    some (0x0102#16, 0x0210#16) := by decide
theorem test_jal_uses_old_link : got (step (start 0xce0e [(.r14, 0x0300#16)])) (fun t => (t.x .r14, t.pc)) =
    some (0x0102#16, 0x0300#16) := by decide

/-! ### System (2.8) -/

-- S1 and the wrap of 2.6
theorem test_nop : got (step (start 0xfff0 [] true true)) (fun t => (t.pc, cz t)) = some (0x0102#16, (true, true)) := by decide
theorem test_nop_wraps : got (exec .nop { start 0 [] with pc := 0xfffe#16 }) State.pc = some 0x0000#16 := by decide
-- S2, R241
theorem test_iret_user : stop (step (start 0xffff [])) = some (.privilegeViolation 0xffff#16) := by decide
theorem test_iret_supervisor : stop (step (startK 0xffff)) = some (.unspecified "iret in supervisor mode") := by decide
-- S3
theorem test_int_is_a_call : exec (.int 5#7) (start 0 []) = .next ((start 0 []).interruptCall 5#7) := rfl
-- R240
theorem test_int_unimplemented_stops :
    stop (exec (.int 127#7) { start 0 [] with unimplemented := [3#7, 127#7] }) =
      some (.unspecified "unimplemented interrupt 127") := by decide
-- S4, S5, X4
theorem test_unassigned_words_stop : stop (step (start 0xfc80 [])) = some (.reservedInstruction 0xfc80#16) ∧
    stop (step (start 0xff00 [])) = some (.reservedInstruction 0xff00#16) := by decide
theorem test_odd_pc_stops : stop (step { start 0xfff0 [] with pc := 0x0003#16 }) = some (.misalignedFetch 0x0003#16) := by
  decide
-- P6: the next fetch sees the store when unified, and not when split
theorem test_store_reaches_code_only_when_unified :
    got (exec (.st .r2 0#4 .r1) (start 0 [(.r1, 0x010a#16), (.r2, 0xfe21#16)])) (fun t => t.word .instr 0x010a#16) =
      some 0xfe21#16 ∧
    got (exec (.st .r2 0#4 .r0) ((startSplit 0).setX .r2 0xfe21#16)) (fun t => (t.word .instr 0#16, t.word .data 0#16)) =
      some (0#16, 0xfe21#16) := by decide
theorem test_absent_memory_stops :
    stop (exec (.ldb .r1 .r0) { start 0 [] with absent := [⟨.data, 0#16, 0xff#16⟩] }) =
      some (.invalidAddress .data 0#16) := by decide

/-! ### The assembler (2.1, 2.9, and 1.4) -/

theorem test_asm_moves :
    asm .ldi [.sym (.add (.symbol "f") (.const 0x1034)), .reg .r1] = some [0x7112#16, 0xe134#16] ∧
    asm .mov [.reg .r3, .reg .r4] = some [0x5403#16] ∧ asm .ld [.memOff .r3 (.const 4), .reg .r2] = some [0x6223#16] ∧
    asm .mov [.memOff .r3 (.const 30), .reg .r2] = some [0x62f3#16] ∧ asm .mov [.mem .r5, .reg .r1] = some [0x6105#16] ∧
    asm .st [.reg .r2, .memOff sp (.const 2)] = some [0xd21d#16] ∧ asm .mov [.reg .r1, .mem .r5] = some [0xd105#16] ∧
    asm .mov [.sys .ps, .reg .r1] = some [0xf411#16] ∧ asm .sts [.reg .r1, .sys .tt] = some [0xf513#16] := by decide
theorem test_asm_absolute :
    asm .ld [.memSym (.symbol "v"), .reg .r1] = some [0x7720#16, 0xe700#16, 0x6107#16] ∧
    asm .st [.reg .r1, .memSym (.symbol "v")] = some [0x7720#16, 0xe700#16, 0xd107#16] ∧
    asm .ldb [.memSym (.symbol "w"), .reg .r1] = some [0x7720#16, 0xe701#16, 0xf217#16] ∧
    asm .stb [.reg .r1, .memSym (.symbol "w")] = some [0x7720#16, 0xe701#16, 0xf317#16] := by decide
theorem test_asm_arithmetic :
    asm .add [.reg .r2, .reg .r1] = some [0x0112#16] ∧ asm .add [.val (.const 2), .reg sp] = some [0xfed2#16] ∧
    asm .cmpl [.reg .r1, .reg .r2] = some [0x1012#16] ∧ asm .not [.reg .r3] = some [0xf033#16] ∧
    asm .sra [.reg .r1, .val (.const 4), .reg .r2] = some [0x9214#16] ∧
    asm .srl [.val (.const 3), .reg .r3] = some [0xa333#16] := by decide
theorem test_asm_control :
    asm .bl [.val (.const 0x0110)] = some [0xf607#16] ∧ asm .be [.val (.const 0x0100)] 0x0108#16 = some [0xf7fb#16] ∧
    asm .bne [.val (.const 0x0100)] 0x0104#16 = some [0xf8fd#16] ∧
    asm .bge [.sym (.symbol "f")] 0x01f0#16 = some [0xf907#16] ∧ asm .b [.sym .dot] = some [0xfbff#16] ∧
    asm .b [.val (.const 0x0203)] = none ∧ asm .call [.sum .r1 .r2] = some [0xce21#16] ∧
    asm .call [.sym (.symbol "f")] = some [0x7702#16, 0xe700#16, 0xce07#16] ∧ asm .j [.reg .r5] = some [0xc005#16] ∧
    asm .ret [] = some [0xc00e#16] := by decide
-- the range and wrap rows of 2.6, read back from the target
theorem test_asm_branch_wraps :
    asm .b [.val (.const 0x00fe)] 0xfffe#16 = some [0xfb7f#16] ∧ asm .b [.val (.const 0xff02)] 0x0000#16 = some [0xfb80#16] ∧
    asm .b [.val (.const 0x0002)] 0xfffe#16 = some [0xfb01#16] ∧ asm .b [.val (.const 0x0202)] = none := by decide
-- R264: `mov` with a bare value is the constant load
theorem test_asm_mov_value : asm .mov [.val (.const 0x1234), .reg .r1] = some [0x7112#16, 0xe134#16] ∧
    asm .movb [.val (.const 0x34), .reg .r1] = some [0xe134#16] := by decide
theorem test_asm_system :
    asm .int [.val (.const 127)] = some [0xfc7f#16] ∧ asm .nop [] = some [0xfff0#16] ∧ asm .iret [] = some [0xffff#16] ∧
    asm .push [.reg .r1] = some [0xfdd2#16, 0xd11d#16] ∧ asm .pop [.reg .r1] = some [0x611d#16, 0xfed2#16] := by decide
theorem test_extraction_operators :
    hi 0x1234 = 0x12 ∧ lo 0x1234 = 0x34 ∧ hi16 0x12345678 = 0x1234 ∧ lo16 0x12345678 = 0x5678 := by decide
theorem test_constants :
    parseConst ['-', '1', '0'] = some (-10) ∧ parseConst ['0', 'x', '1', 'f'] = some 31 ∧
    parseConst ['0', '1', '7'] = some 15 ∧ parseConst ['\'', 'A', '\''] = some 65 ∧
    parseConst ['\'', '\\', '0', '3', '7', '7', '\''] = some 255 ∧
    parseConst ['\'', '\\', '0', 'x', '1', 'e', '\''] = some 30 ∧ parseConst ['\'', '\\', 'n', '\''] = some 10 ∧
    parseConst ['\'', '\\', '\'', '\''] = some 39 ∧
    parseConst ['\'', '\\', '\"', '\''] = some 34 ∧ parseConst ['\'', '\\', '?', '\''] = some 63 ∧ parseConst ['0', '8'] = none := by decide
theorem test_register_names :
    ["%r15", "%gp", "%ra", "%sp", "%fp", "%a0", "%t6", "%0"].map regOfName =
      [some .r15, some .r15, some .r14, some .r13, some .r12, some .r8, some .r7, some .r0] ∧
    ["%s0", "%ps", "%tt", "%pt"].map sysRegOfName = [some .pc, some .ps, some .tt, some .pt] := by decide
theorem test_names :
    ["mov", "sll", "pop"].map mnemonicOfName = [some .mov, some .sll, some .pop] ∧ mnemonicOfName "MOV" = none ∧
    regOperand "%sp" = some (.reg sp) ∧ regOperand "%s2" = some (.sys .pt) ∧ regOperand "%r16" = none := by decide
theorem test_save_classes : saveClass t5 = .saved ∧ saveClass t6 = .nonSaved ∧ saveClass a3 = .nonSaved ∧
    saveClass sp = .unclassed := by decide
-- K1, K2, K5
theorem test_push : got (execSeq [.subi sp 2#4, .st .r1 1#4 sp] (start 0 [(.r1, 0x1234#16), (sp, 0x8000#16)]))
    (fun t => (t.x sp, t.word .data 0x8000#16, cz t)) = some (0x7ffe#16, 0x1234#16, (false, false)) := by decide
theorem test_pop : got (execSeq [.ld .r5 1#4 sp, .addi sp 2#4]
      (start 0 [(sp, 0x7ffe#16)] (d := [(0x8000#16, 0x12#8), (0x8001#16, 0x34#8)])))
    (fun t => (t.x .r5, t.x sp, cz t)) = some (0x1234#16, 0x8000#16, (false, false)) := by decide

/-! ### Memory -/

theorem test_write_keeps_canonical_form :
    Memory.write [(1, 7#8), (5, 9#8)] 3 2#8 = [(1, 7#8), (3, 2#8), (5, 9#8)] ∧
    Memory.write [(1, 7#8), (5, 9#8)] 5 0#8 = [(1, 7#8)] ∧
    Memory.ofCells [(5, 1#8), (70000, 3#8), (2, 4#8), (5, 6#8)] = [(2, 4#8), (5, 6#8)] := by decide

/-! ### Witnesses: for each statement with hypotheses, values that meet them together, at the ends of each clause -/

/-- The instruction at a state's pc, with everything a step needs before it runs. -/
def runs (s : State) (i : Instr) : Prop :=
  s.run = .running ∧ isOdd s.pc = false ∧ s.valid .instr s.pc = true ∧ s.valid .instr (s.pc + 1#16) = true ∧
    dec (ofBytes (s.byte .instr s.pc) (s.byte .instr (s.pc + 1#16))) = some i

/-- A state that answers a next state. -/
def goesOn (o : Outcome) : Prop := (got o fun _ => true) = some true

/-- Every byte of data space below 0x0100 absent, and of instruction space. -/
def absentLow : State := { start 0 [] with absent := [⟨.data, 0#16, 0xff#16⟩, ⟨.instr, 0#16, 0xff#16⟩] }

/-- A place for a line of assembly. -/
def ctx : Ctx := { symbols := [("even", 0x2000), ("odd", 0x2001), ("top", 0xffff)], here := 0x0100#16 }

theorem witness_EncodeOfDecodedWordIsTheWord : dec 0x0000#16 = some (.add .r0 .r0 .r0) ∧ dec 0xffff#16 = some .iret := by
  decide
theorem witness_DecodeSelectsTheOneFittingRow :
    rowOf .nop ∈ opcodeTable ∧ (rowOf .nop).fits 0xfff0#16 = true ∧ dec 0xfff0#16 = some .nop := by decide
theorem witness_PrimaryMapDecodes : (0xf000#16 : Word) >>> 12 = 0xf#16 ∧ (0xffff#16 : Word) >>> 12 = 0xf#16 := by decide
theorem witness_SecondaryMapDecodes :
    (0xfff0#16 : Word) >>> 8 = 0xff#16 ∧ dec 0xfff0#16 = some .nop ∧ (0xffff#16 : Word) >>> 8 = 0xff#16 ∧
    dec 0xffff#16 = some .iret := by decide
theorem witness_TertiaryMapHasExactlyTwoWords :
    0xff00 ≤ (0xfff0#16 : Word).toNat ∧ 0xff00 ≤ (0xffff#16 : Word).toNat ∧ 0xff00 ≤ (0xff00#16 : Word).toNat ∧
    (0xff00#16 : Word) ≠ 0xfff0#16 ∧ (0xff00#16 : Word) ≠ 0xffff#16 := by decide
theorem witness_StepRunsTheDecodedInstruction :
    runs (start 0x0312 []) (.add .r3 .r1 .r2) ∧ runs (startSplit 0xfff0) .nop := by unfold runs; decide
theorem witness_StepStopsBeforeExecutionInOrder :
    { start 0 [] with run := .halted 3 }.run = .halted 3 ∧
    ((start 0 []).run = .running ∧ isOdd ({ start 0 [] with pc := 0xffff#16 }).pc = true) ∧
    (absentLow.run = .running ∧ isOdd ({ absentLow with pc := 0x00fe#16 }).pc = false ∧
      (absentLow.valid .instr 0x00fe#16 && absentLow.valid .instr 0x00ff#16) = false) ∧
    ((start 0xfc80 []).run = .running ∧ isOdd (start 0xfc80 []).pc = false ∧
      ((start 0xfc80 []).valid .instr 0x0100#16 && (start 0xfc80 []).valid .instr 0x0101#16) = true ∧
      dec ((start 0xfc80 []).word .instr 0x0100#16) = none) := by decide
theorem witness_StepKeepsMemoryCanonical : (start 0xd001 []).mem.wf ∧ goesOn (step (start 0xd001 [])) := by
  unfold goesOn; decide
theorem witness_StepKeepsUserMode : (start 0x0312 []).k = false ∧ goesOn (step (start 0x0312 [])) := by
  unfold goesOn; decide
theorem witness_StepKeepsUnreachableStateAndConfiguration :
    goesOn (step (start 0x2214 [])) ∧ goesOn (step (startK 0xf411)) := by unfold goesOn; decide
theorem witness_SplitInstructionSpaceNeverChanges :
    (startSplit 0xd001).mem.isUnified = false ∧ goesOn (step (startSplit 0xd001)) := by unfold goesOn; decide
theorem witness_EvenPcStaysEvenExceptUnderJal :
    isOdd (start 0 []).pc = false ∧ (∀ r o a, Instr.b 0x80#8 ≠ .jal r o a) ∧ goesOn (exec (.b 0x80#8) (start 0 [])) := by
  unfold goesOn; exact ⟨by decide, nofun, by decide⟩
theorem witness_OnlyIntReachesTheEnvironment :
    (∀ n, Instr.nop ≠ .int n) ∧ goesOn (exec .nop (start 0 [])) := ⟨nofun, rfl⟩
theorem witness_OnlyStoresAndIntChangeMemory :
    mayWriteMemory (.ld .r1 0#4 .r0) = false ∧ goesOn (exec (.ld .r1 0#4 .r0) (start 0 [])) := by unfold goesOn; decide
theorem witness_OtherInstructionsLeavePsUnchanged :
    mayWriteFlags (.xor .r1 .r1 .r1) = false ∧ goesOn (exec (.xor .r1 .r1 .r1) (start 0 [])) := by unfold goesOn; decide
theorem witness_ListedInstructionsNeverStop : neverStops (.jal .r1 .r0 .r1) = true ∧ neverStops .nop = true := by decide
theorem witness_RegisterZeroIsHardwired : goesOn (step (start 0x7012 [])) := by unfold goesOn; decide
/-- An answered store, with the two addresses it stores to. -/
def stores (a : Word) : Bool :=
  match memWriteWord (start 0 []) a 0x1234#16 with
  | .ok _ => true
  | .error _ => false
theorem witness_StoredWordReadsBack : stores 0x2000#16 = true ∧ stores 0xfffe#16 = true ∧
    (start 0 []).mem.isUnified = true ∧ (startSplit 0).mem.isUnified = false := by decide
theorem witness_LdLoadsTheBigEndianWord :
    isOdd ((start 0 []).wordAddr .r0 15#4) = false ∧ (start 0 []).valid .data 0x001e#16 = true ∧
    (start 0 []).wordAddr .r0 15#4 = 0x001e#16 ∧ (start 0 []).valid .data 0x001f#16 = true := by decide
theorem witness_StStoresTheBigEndianWord :
    isOdd ((start 0 [(.r1, 0xfffe#16)]).wordAddr .r1 0#4) = false ∧
    (start 0 [(.r1, 0xfffe#16)]).valid .data ((start 0 [(.r1, 0xfffe#16)]).wordAddr .r1 0#4) = true ∧
    (start 0 [(.r1, 0xfffe#16)]).valid .data ((start 0 [(.r1, 0xfffe#16)]).wordAddr .r1 0#4 + 1#16) = true := by decide
theorem witness_LoadsAndStoresStop :
    isOdd ((start 0 [(.r1, 0xffff#16)]).wordAddr .r1 0#4) = true ∧
    isOdd (absentLow.wordAddr .r0 15#4) = false ∧
    (absentLow.valid .data (absentLow.wordAddr .r0 15#4) && absentLow.valid .data (absentLow.wordAddr .r0 15#4 + 1#16)) =
      false ∧
    absentLow.valid .data (absentLow.byteAddr .r0) = false := by decide
theorem witness_LdbLoadsTheLowHalf : (start 0 [(.r1, 0xffff#16)]).valid .data ((start 0 [(.r1, 0xffff#16)]).byteAddr .r1) =
    true := by decide
theorem witness_StbStoresTheLowHalf : (start 0 []).valid .data ((start 0 []).byteAddr .r0) = true := by decide
theorem witness_LdsReadsTheSystemRegister :
    (startK 0).k = true ∧ (0#4 : Nibble).toNat ≤ 3 ∧ (3#4 : Nibble).toNat ≤ 3 := by decide
/-- The instruction a state fetches. -/
def fetched (s : State) : Option Instr :=
  match fetchInstr s with
  | .ok i => some i
  | .error _ => none
theorem witness_SupervisorOnlyInstructionsStopInUserMode :
    supervisorOnly (.lds .r1 9#4) = true ∧ (start 0xf419 []).k = false ∧ (start 0xf419 []).run = .running ∧
    fetched (start 0xf419 []) = some (.lds .r1 9#4) := by decide
theorem witness_SupervisorBlanksStop :
    (startK 0).k = true ∧ (3#4 : Nibble).toNat ≤ 3 ∧ 3 < (4#4 : Nibble).toNat ∧ 3 < (15#4 : Nibble).toNat := by decide
theorem witness_BranchAfterCmpFollowsSignedOrder : goesOn (exec (.cmp .r1 .r2) (start 0 [(.r1, 0x8000#16)])) := by
  unfold goesOn; decide
theorem witness_symexpr_value :
    (Symexpr.symbol "even").eval ctx = some 0x2000 ∧ (Symexpr.symbol "top").eval ctx = some 0xffff ∧
    (Symexpr.add (.symbol "even") (.const (-0xdcc))).eval ctx = some 0x1234 ∧ (Value.const 15).eval = some 15 := by decide
theorem witness_LoadConstantLeavesTheValue :
    (Symexpr.add (.symbol "even") (.const (-0xdcc))).eval ctx = some 0x1234 := by decide
theorem witness_AbsoluteLoadUsesT6 :
    (Symexpr.symbol "even").eval ctx = some 0x2000 ∧ isOdd (BitVec.ofInt 16 0x2000) = false ∧
    (start 0 []).valid .data (BitVec.ofInt 16 0x2000) = true ∧
    (start 0 []).valid .data (BitVec.ofInt 16 0x2000 + 1#16) = true ∧ Reg.r7 = t6 ∧ Reg.r1 ≠ t6 := by decide
theorem witness_AbsoluteStoreUsesT6 :
    (Symexpr.symbol "even").eval ctx = some 0x2000 ∧ isOdd (BitVec.ofInt 16 0x2000) = false ∧
    (start 0 []).valid .data (BitVec.ofInt 16 0x2000) = true ∧
    (start 0 []).valid .data (BitVec.ofInt 16 0x2000 + 1#16) = true := by decide
theorem witness_PushStoresAtTheOldStackPointer :
    isOdd ((start 0 [(sp, 0x8001#16)]).x sp) = true ∧ isOdd ((start 0 []).x sp) = false ∧
    (start 0 []).valid .data ((start 0 []).x sp) = true ∧ (start 0 []).valid .data ((start 0 []).x sp + 1#16) = true := by
  decide
theorem witness_PopLoadsTheLastPushedWord :
    isOdd ((start 0 [(sp, 0xfffc#16)]).x sp + 2#16) = false ∧
    (start 0 [(sp, 0xfffc#16)]).valid .data ((start 0 [(sp, 0xfffc#16)]).x sp + 2#16) = true ∧
    (start 0 [(sp, 0xfffc#16)]).valid .data ((start 0 [(sp, 0xfffc#16)]).x sp + 2#16 + 1#16) = true := by decide
theorem witness_CallSymbolReturnsPastTheCall : (Symexpr.sub (.symbol "even") (.const 0x1e00)).eval ctx = some 0x0200 := by
  decide
theorem witness_ShortFormsRepeatTheDestination : (Value.const 15).eval = some 15 := by decide
theorem witness_JumpFormsExpandToJal : (Symexpr.symbol "odd").eval ctx = some 0x2001 := by decide
theorem witness_OneLineAliasesExpand :
    (Symexpr.symbol "odd").eval ctx = some 0x2001 ∧ (Value.neg (.const 1)).eval = some (-1) := by decide
theorem witness_ExtractionOperatorsSplitAValue :
    (0xffff : Int) = (0xffff : Nat) ∧ (0 : Int) ≤ 0 ∧ (0 : Int) < 65536 ∧ (0 : Int) ≤ 65535 ∧ (65535 : Int) < 65536 := by
  decide
theorem witness_IntIsOneEnvironmentCall :
    (0#7 : BitVec 7) ∉ (start 0 []).unimplemented ∧ (127#7 : BitVec 7) ∉ (start 0 []).unimplemented ∧
    (127#7 : BitVec 7) ∈ ({ start 0 [] with unimplemented := [127#7] }).unimplemented := by decide
theorem witness_NopOnlyAdvances : assemble ctx .nop [] = some [.nop] ∧ Instr.nop ∈ [Instr.nop] := by decide
/-- The farthest distances, the next instruction, and a target past the top of the address space. -/
theorem witness_AssembledBranchReachesItsTarget :
    let pc : Int := (start 0 []).pc.toNat
    let top : Int := ({ start 0 [] with pc := 0xfffe#16 }).pc.toNat
    ((pc - 254 - (pc + 2 + -256)) % 65536 = 0 ∧ (-256 : Int) % 2 = 0) ∧
    ((pc + 256 - (pc + 2 + 254)) % 65536 = 0 ∧ (254 : Int) % 2 = 0) ∧
    ((pc + 2 - (pc + 2 + 0)) % 65536 = 0) ∧ ((0x0002 - (top + 2 + 2)) % 65536 = 0) := by decide
/-- The counts and bit positions at the ends of the ranges in the statements on logic, rotates and shifts. -/
theorem witness_bit_positions : 0 < 16 ∧ 15 < 16 ∧ (0#4 : Nibble).toNat ≤ 15 ∧ (15#4 : Nibble).toNat ≤ 15 := by decide

end Sys2Proof.Tests
end

/-! PROOFS. The statements of spec/00_scope.md: what a step is, and where it stops before its instruction runs (R5). -/

namespace Sys2Proof.Machine

/-! ### Where a fetch stops -/

/-- The stops of a fetched word, alignment first (R48, R50, R285). -/
theorem fetchWord_error (s : State) (f : Fault) :
    fetchWord s = .error f ↔
      (isOdd s.pc = true ∧ f = .misalignedFetch s.pc) ∨
      (isOdd s.pc = false ∧ (s.valid .instr s.pc && s.valid .instr (s.pc + 1#16)) = false ∧
        f = .invalidAddress .instr s.pc) := by
  unfold fetchWord
  cases isOdd s.pc with
  | true => simp [@eq_comm _ f]
  | false => cases s.valid .instr s.pc && s.valid .instr (s.pc + 1#16) <;> simp [@eq_comm _ f]

/-- The stops of a fetched instruction: those of its word, then a word that decodes to nothing (R82, R285). -/
theorem fetchInstr_error (s : State) (f : Fault) :
    fetchInstr s = .error f ↔
      fetchWord s = .error f ∨
      ∃ w, fetchWord s = .ok w ∧ (∀ i, decode w ≠ .ok i) ∧ f = .reservedInstruction w := by
  unfold fetchInstr
  cases hw : fetchWord s with
  | error g => simp
  | ok w => cases hd : decode w <;> simp [hd, eq_comm]

/-! ### The three cases of a step (R5) -/

theorem step_of_halted {s : State} {info : Nat} (hr : s.run = .halted info) : step s = .next s :=
  (step_next s s).2 (.inl ⟨⟨info, hr⟩, rfl⟩)

theorem step_of_fetchInstr_ok {s : State} {i : Instr} (hr : s.run = .running) (hf : fetchInstr s = .ok i) :
    step s = exec i s := by
  simp [step, hr, hf]

theorem step_of_fetchInstr_error {s : State} {f : Fault} (hr : s.run = .running) (hf : fetchInstr s = .error f) :
    step s = .fault f := by
  simp [step, hr, hf]

/-! ### The statements -/

/-- Settles O9: under its conditions the fetch answers `i`, and the step is then `exec i`. -/
theorem stepRunsTheDecodedInstruction : Obligations.StepRunsTheDecodedInstruction := by
  intro s i hrun heven hfirst hsecond hdecode
  have hword : fetchWord s = .ok (s.word .instr s.pc) := (fetchWord_ok s _).2 ⟨heven, hfirst, hsecond, rfl⟩
  exact step_of_fetchInstr_ok hrun ((fetchInstr_ok s i).2 ⟨_, hword, hdecode⟩)

/-- Settles O10: each stop is one case of `fetchWord_error` or `fetchInstr_error`, and the step passes it on. -/
theorem stepStopsBeforeExecutionInOrder : Obligations.StepStopsBeforeExecutionInOrder := by
  refine fun s => ⟨fun _ hhalted => step_of_halted hhalted, fun hrun => ⟨?misaligned, ?absent, ?unassigned⟩⟩
  case misaligned =>
    intro hodd
    exact step_of_fetchInstr_error hrun ((fetchInstr_error s _).2 (.inl ((fetchWord_error s _).2 (.inl ⟨hodd, rfl⟩))))
  case absent =>
    intro heven habsent
    have hword : fetchWord s = .error (.invalidAddress .instr s.pc) :=
      (fetchWord_error s _).2 (.inr ⟨heven, habsent, rfl⟩)
    exact step_of_fetchInstr_error hrun ((fetchInstr_error s _).2 (.inl hword))
  case unassigned =>
    intro heven hpresent hreject
    obtain ⟨hfirst, hsecond⟩ := Bool.and_eq_true_iff.1 hpresent
    have hword : fetchWord s = .ok (s.word .instr s.pc) := (fetchWord_ok s _).2 ⟨heven, hfirst, hsecond, rfl⟩
    exact step_of_fetchInstr_error hrun ((fetchInstr_error s _).2 (.inr ⟨_, hword, hreject, rfl⟩))

end Sys2Proof.Machine

/-! PROOFS. The statements of spec/10_state.md: what every step keeps of the state, and what an instruction of each kind
does to the pc and to `%ps`. -/

namespace Sys2Proof.Machine

open Sys2Proof.Safety

/-! ### Register 0 (R11) -/

@[simp] theorem State.setX_r0 (s : State) (v : Word) : s.setX .r0 v = s := rfl

@[simp] theorem State.writeFlagged_r0 (s : State) (r : Flagged) : s.writeFlagged .r0 r = s.setFlags r.c r.z := rfl

theorem execJal_r0 (roff raddr : Reg) (s : State) : execJal .r0 roff raddr s = .next (s.jump (s.jalTarget raddr roff)) := by
  rw [execJal, State.setX_r0]

/-! ### Even addresses (R20) -/

/-- Bit 0 of a sum has no carry into it. -/
theorem isOdd_add (a b : Word) : isOdd (a + b) = (isOdd a ^^ isOdd b) := by
  rw [isOdd, BitVec.getLsbD_add (by decide), BitVec.carry_zero, Bool.xor_false, isOdd, isOdd]

/-- A doubled displacement is even (R80). -/
theorem isOdd_shiftLeft_one (a : Word) : isOdd (a <<< 1) = false := by
  simp [isOdd]

theorem isOdd_add_two (a : Word) : isOdd (a + 2#16) = isOdd a := by
  rw [isOdd_add, show isOdd 2#16 = false from rfl, Bool.xor_false]

theorem State.isOdd_branchTarget (s : State) (d : Byte) : isOdd (s.branchTarget d) = isOdd s.pc := by
  rw [State.branchTarget, isOdd_add, isOdd_shiftLeft_one, Bool.xor_false, isOdd_add_two]

/-! ### The fields of `%ps` a step cannot reach (R23, R26) -/

/-- Every bit of `%ps` but K, C and Z is as before: IPL and RSV together (R21). -/
def UnreachedPsKept (s t : State) : Prop := ∀ i, i ≠ 15 → i ≠ 7 → i ≠ 6 → t.ps.getLsbD i = s.ps.getLsbD i

theorem UnreachedPsKept.of_ps_eq {s t : State} (h : t.ps = s.ps) : UnreachedPsKept s t := fun _ _ _ _ => by rw [h]

theorem UnreachedPsKept.of_psWithFlags {s t : State} {c z : Bool} (h : t.ps = psWithFlags s.ps c z) :
    UnreachedPsKept s t := fun i _ h7 h6 => by rw [h, psWithFlags_other _ _ _ i h7 h6]

/-- Bits 14 to 8 are none of 15, 7 and 6. -/
theorem UnreachedPsKept.ipl {s t : State} (h : UnreachedPsKept s t) : t.ipl = s.ipl := by
  refine BitVec.eq_of_getLsbD_eq fun j hj => ?_
  simp only [State.ipl, BitVec.getLsbD_extractLsb', h (8 + j) (by omega) (by omega) (by omega)]

/-- Bits 5 to 0 are none of 15, 7 and 6. -/
theorem UnreachedPsKept.rsv {s t : State} (h : UnreachedPsKept s t) : t.rsv = s.rsv := by
  refine BitVec.eq_of_getLsbD_eq fun j hj => ?_
  simp only [State.rsv, BitVec.getLsbD_extractLsb', h (0 + j) (by omega) (by omega) (by omega)]

/-! ### The configuration (R28, R29, R33) -/

/-- `%pt`, `%tt` and the parameters of the run that a state holds are as before. -/
structure ConfigKept (s t : State) : Prop where
  pt : t.pt = s.pt
  tt : t.tt = s.tt
  unified : t.mem.isUnified = s.mem.isUnified
  absent : t.absent = s.absent
  unimplemented : t.unimplemented = s.unimplemented

/-! ### What an interrupt call keeps (R240) -/

theorem State.interruptCall_k (s : State) (n : BitVec 7) (hk : s.k = false) : (s.interruptCall n).k = false := by
  rcases s.interruptCall_cases n with ⟨f, c, z, data, h⟩ | ⟨info, h⟩
  · rw [h, State.k_advance, State.k_envResume]
  · rw [h]; exact hk

theorem State.interruptCall_unreachedPsKept (s : State) (n : BitVec 7) : UnreachedPsKept s (s.interruptCall n) := by
  rcases s.interruptCall_cases n with ⟨f, c, z, data, h⟩ | ⟨info, h⟩
  · intro i h15 h7 h6
    rw [h, State.advance_ps, State.envResume_ps, psUserMode_other _ i h15, psWithFlags_other _ _ _ i h7 h6]
  · rw [h]; exact .of_ps_eq rfl

theorem State.interruptCall_configKept (s : State) (n : BitVec 7) : ConfigKept s (s.interruptCall n) := by
  rcases s.interruptCall_cases n with ⟨f, c, z, data, h⟩ | ⟨info, h⟩
  · rw [h]; exact ⟨rfl, rfl, by simp, rfl, rfl⟩
  · rw [h]; exact ⟨rfl, rfl, rfl, rfl, rfl⟩

/-- The pc after a call: the next instruction, or the `int` itself when the run ends there. -/
theorem State.interruptCall_pc (s : State) (n : BitVec 7) :
    (s.interruptCall n).pc = s.pc + 2#16 ∨ (s.interruptCall n).pc = s.pc := by
  rcases s.interruptCall_cases n with ⟨f, c, z, data, h⟩ | ⟨info, h⟩
  · exact .inl (by rw [h, State.advance_pc, State.envResume_pc])
  · exact .inr (by rw [h])

/-! ### What every effect keeps -/

theorem Effect.k_eq_false {s t : State} (he : Effect s t) (hk : s.k = false) : t.k = false := by
  cases he with
  | flagged d r => rw [State.k_advance, State.k_writeFlagged, hk]
  | flags c z => rw [State.k_advance, State.k_setFlags, hk]
  | call n _ => exact s.interruptCall_k n hk
  | reg | word | byte | fallThrough | branch | jal => exact hk

theorem Effect.unreachedPsKept {s t : State} (he : Effect s t) : UnreachedPsKept s t := by
  cases he with
  | flagged | flags => exact .of_psWithFlags rfl
  | call n _ => exact s.interruptCall_unreachedPsKept n
  | reg | word | byte | fallThrough | branch | jal => exact .of_ps_eq rfl

theorem Effect.configKept {s t : State} (he : Effect s t) : ConfigKept s t := by
  cases he with
  | word | byte => exact ⟨rfl, rfl, by simp, rfl, rfl⟩
  | call n _ => exact s.interruptCall_configKept n
  | reg | flagged | flags | fallThrough | branch | jal => exact ⟨rfl, rfl, rfl, rfl, rfl⟩

/-- A step leaves the state of an ended run alone, or has the effect of its instruction. -/
theorem step_effect {s t : State} (h : step s = .next t) : t = s ∨ Effect s t := by
  rcases (step_next s t).1 h with ⟨_, hts⟩ | ⟨_, i, _, hexec⟩
  · exact .inl hts
  · exact .inr (exec_effect i s t hexec)

/-! ### Which instruction has which effect -/

/-- An instruction that loads falls through from what it does with the value it read. -/
theorem finish_map_next {α : Type} {r : Except Fault α} {f : α → State} {t : State} (h : finish (r.map f) = .next t) :
    ∃ v, t = (f v).advance := by
  cases r with
  | ok v => cases h; exact ⟨v, rfl⟩
  | error g => cases h

theorem privileged_next {i : Instr} {s t : State} {body : Outcome} (h : privileged i s body = .next t) :
    body = .next t := by
  cases hk : s.k with
  | false => rw [privileged_user _ _ _ hk] at h; cases h
  | true => rwa [privileged_supervisor _ _ _ hk] at h

theorem execLds_next {d : Reg} {n : Nibble} {s t : State} (h : execLds d n s = .next t) :
    ∃ v, t = (s.setX d v).advance := by
  have hbody := privileged_next h
  cases hn : SysReg.ofField n with
  | none => rw [hn] at hbody; cases hbody
  | some r => rw [hn] at hbody; cases hbody; exact ⟨_, rfl⟩

/-- `sts` has no meaning in either mode (R109). -/
theorem execSts_ne_next (r : Reg) (n : Nibble) (s t : State) : execSts r n s ≠ .next t := by
  intro h
  have hbody := privileged_next h
  cases hn : SysReg.ofField n <;> rw [hn] at hbody <;> cases hbody

/-- `iret` has no meaning in either mode (R241). -/
theorem execIret_ne_next (s t : State) : execIret s ≠ .next t := fun h => nomatch privileged_next h

/-- `Effect`, with the instruction that has it: by its class where the effect is shared, by itself where it is its own. -/
inductive InstrEffect (s : State) : Instr → State → Prop where
  | reg {i : Instr} (hi : mayWriteFlags i = false) (d : Reg) (v : Word) : InstrEffect s i (s.setX d v).advance
  | flagged {i : Instr} (hi : mayWriteFlags i = true) (d : Reg) (r : Flagged) :
      InstrEffect s i (s.writeFlagged d r).advance
  | flags (a b : Reg) (c z : Bool) : InstrEffect s (.cmp a b) (s.setFlags c z).advance
  | word (r : Reg) (off : Nibble) (a : Reg) :
      InstrEffect s (.st r off a) (s.setWord .data (s.wordAddr a off) (s.x r)).advance
  | byte (r a : Reg) : InstrEffect s (.stb r a) (s.setByte .data (s.byteAddr a) (loByte (s.x r))).advance
  | fallThrough {i : Instr} (hi : mayWriteFlags i = false) : InstrEffect s i s.advance
  | branch {i : Instr} (hi : mayWriteFlags i = false) (d : Byte) : InstrEffect s i (s.jump (s.branchTarget d))
  | jal (rret roff raddr : Reg) :
      InstrEffect s (.jal rret roff raddr) ((s.setX rret s.link).jump (s.jalTarget raddr roff))
  | call (n : BitVec 7) : InstrEffect s (.int n) (s.interruptCall n)

theorem InstrEffect.of_branchIf {i : Instr} {cond : Bool} {d : Byte} {s t : State} (hi : mayWriteFlags i = false)
    (h : branchIf cond d s = .next t) : InstrEffect s i t := by
  rw [branchIf_next] at h
  subst h
  cases cond with
  | false => exact .fallThrough hi
  | true => exact .branch hi d

theorem exec_instrEffect {i : Instr} {s t : State} (h : exec i s = .next t) : InstrEffect s i t := by
  cases i with
  | add | sub | addi | subi | rol | ror | sl | sr | srl => cases h; exact .flagged rfl _ _
  | cmp a b => cases h; exact .flags a b _ _
  | and | or | xor | not | sethi | movbImm => cases h; exact .reg rfl _ _
  | ld | ldb => obtain ⟨v, rfl⟩ := finish_map_next h; exact .reg rfl _ _
  | lds => obtain ⟨v, rfl⟩ := execLds_next h; exact .reg rfl _ _
  | st r off a =>
    obtain ⟨u, hu, rfl⟩ := (finish_next _ _).1 h
    obtain ⟨_, rfl⟩ := (memWriteWord_ok _ _ _ _).1 hu
    exact .word r off a
  | stb r a =>
    obtain ⟨u, hu, rfl⟩ := (finish_next _ _).1 h
    obtain ⟨_, rfl⟩ := (memWriteByte_ok _ _ _ _).1 hu
    exact .byte r a
  | bl | be | bne | bge | bg | b => exact .of_branchIf rfl h
  | jal r o a => cases h; exact .jal r o a
  | int n =>
    rcases execInt_cases n s with ⟨_, hn⟩ | ⟨_, hn⟩ <;> cases hn.symm.trans h
    exact .call n
  | nop => cases h; exact .fallThrough rfl
  | sts r n => exact absurd h (execSts_ne_next r n s t)
  | iret => exact absurd h (execIret_ne_next s t)

/-- Every way an instruction but `jal` moves the pc: to the next instruction, to the target of a short branch, or not
at all when an environment call ends the run (R19, R80, R300). -/
theorem InstrEffect.pc_cases {i : Instr} {s t : State} (he : InstrEffect s i t) (hjal : ∀ r o a, i ≠ .jal r o a) :
    t.pc = s.pc + 2#16 ∨ (∃ d, t.pc = s.branchTarget d) ∨ t.pc = s.pc := by
  cases he with
  | branch _ d => exact .inr (.inl ⟨d, rfl⟩)
  | jal r o a => exact absurd rfl (hjal r o a)
  | call n => exact (s.interruptCall_pc n).imp id .inr
  | reg | flagged | flags | word | byte | fallThrough => exact .inl rfl

/-- An instruction outside the class that R27 lists leaves the whole of `%ps`. -/
theorem InstrEffect.ps_eq {i : Instr} {s t : State} (he : InstrEffect s i t) (hi : mayWriteFlags i = false) :
    t.ps = s.ps := by
  cases he with
  | flagged hflags => cases hflags.symm.trans hi
  | flags | call => cases hi
  | reg | word | byte | fallThrough | branch | jal => rfl

/-! ### The statements -/

/-- Settles O13: every effect keeps K clear, the only one that writes K (`int`) by clearing it. -/
theorem stepKeepsUserMode : Obligations.StepKeepsUserMode := by
  intro s t hk h
  rcases step_effect h with rfl | he
  · exact hk
  · exact he.k_eq_false hk

/-- Settles O14: IPL and RSV by the bits of `%ps` that every effect keeps, the rest by the fields it keeps. -/
theorem stepKeepsUnreachableStateAndConfiguration : Obligations.StepKeepsUnreachableStateAndConfiguration := by
  intro s t h
  rcases step_effect h with rfl | he
  · exact ⟨rfl, rfl, rfl, rfl, rfl, rfl, rfl⟩
  · obtain ⟨hpt, htt, hunified, habsent, hunimplemented⟩ := he.configKept
    exact ⟨hpt, htt, he.unreachedPsKept.ipl, he.unreachedPsKept.rsv, hunified, habsent, hunimplemented⟩

/-- Settles O16: the next instruction and every branch target are as even as the pc. -/
theorem evenPcStaysEvenExceptUnderJal : Obligations.EvenPcStaysEvenExceptUnderJal := by
  intro i s t heven hjal h
  rcases (exec_instrEffect h).pc_cases hjal with hpc | ⟨d, hpc⟩ | hpc
  · rw [hpc, isOdd_add_two, heven]
  · rw [hpc, State.isOdd_branchTarget, heven]
  · rw [hpc, heven]

/-- Settles O19: by the effects an instruction of its class can have. -/
theorem otherInstructionsLeavePsUnchanged : Obligations.OtherInstructionsLeavePsUnchanged :=
  fun _ _ _ hi h => (exec_instrEffect h).ps_eq hi

/-- Settles O21: reading and writing register 0, the flags and the jump of an instruction that writes it, and a read of it
in the state of any step. -/
theorem registerZeroIsHardwired : Obligations.RegisterZeroIsHardwired :=
  fun s => ⟨s.x_r0, s.setX_r0, s.writeFlagged_r0, fun o a => execJal_r0 o a s, fun t _ => t.x_r0⟩

end Sys2Proof.Machine

/-! PROOFS. The statements of spec/20_memory.md: what a step can do to memory, what a stored word reads back as, and where
loads and stores stop. -/

namespace Sys2Proof.Machine

open Sys2Proof.Safety

/-! ### One array for both spaces (R41) -/

theorem Spaces.view_of_unified {sp : Spaces} (h : sp.isUnified = true) (p q : Space) : sp.view p = sp.view q := by
  cases sp with
  | unified m => rfl
  | split m d => cases h

theorem State.byte_of_unified {s : State} (h : s.mem.isUnified = true) (p q : Space) (a : Word) :
    s.byte p a = s.byte q a := by
  rw [State.byte, State.byte, Spaces.view_of_unified h p q]

/-! ### What a store leaves unchanged (R42, R44, R61) -/

theorem memKept_of_mem_eq {s t : State} (h : t.mem = s.mem) : MemKept s t := fun _ _ => by
  rw [State.byte, State.byte, h]

/-- Data space only is written, so with two arrays instruction space is as before, and with one it reads as data space. -/
theorem State.setByte_storeOnly (s : State) (a : Word) (v : Byte) : StoreOnly [a] s (s.setByte .data a v) := by
  refine ⟨fun _ => rfl, rfl, fun p b hb => ?others, fun hsplit b => ?split, fun hunified b => ?unified,
    rfl, rfl, by simp, rfl, rfl, rfl, rfl⟩
  case others =>
    rw [State.byte_setByte, if_neg fun h => hb (List.mem_singleton.2 h.2)]
  case split => simp [State.byte_setByte, hsplit]
  case unified => exact State.byte_of_unified (by simpa using hunified) _ _ b

theorem State.setWord_storeOnly (s : State) (a v : Word) : StoreOnly [a, a + 1#16] s (s.setWord .data a v) := by
  refine ⟨fun _ => rfl, rfl, fun p b hb => ?others, fun hsplit b => ?split, fun hunified b => ?unified,
    rfl, rfl, by simp, rfl, rfl, rfl, rfl⟩
  case others =>
    have hfirst : b ≠ a := fun h => hb (by simp [h])
    have hsecond : b ≠ a + 1#16 := fun h => hb (by simp [h])
    rw [State.byte_setWord, if_neg hsecond, if_neg hfirst, ite_self]
  case split => simp [State.byte_setWord, hsplit]
  case unified => exact State.byte_of_unified (by simpa using hunified) _ _ b

/-- With two arrays a store is not seen by fetch (R42). -/
theorem byte_instr_of_storeOnly {stored : List Word} {s t : State} (h : StoreOnly stored s t)
    (hsplit : s.mem.isUnified = false) (a : Word) : t.byte .instr a = s.byte .instr a := by
  obtain ⟨_, _, _, hinstr, _, _⟩ := h
  exact hinstr hsplit a

/-! ### What an interrupt call does to memory (R240) -/

theorem State.wf_interruptCall (s : State) (n : BitVec 7) (h : s.mem.wf) : (s.interruptCall n).mem.wf := by
  rcases s.interruptCall_cases n with ⟨f, c, z, data, hcall⟩ | ⟨info, hcall⟩
  · rw [hcall]; exact s.wf_envResume f c z data h
  · rw [hcall]; exact h

/-- The environment writes data space, which instruction space does not see when there are two arrays (R42). -/
theorem State.byte_instr_interruptCall (s : State) (n : BitVec 7) (hsplit : s.mem.isUnified = false) (a : Word) :
    (s.interruptCall n).byte .instr a = s.byte .instr a := by
  rcases s.interruptCall_cases n with ⟨f, c, z, data, hcall⟩ | ⟨info, hcall⟩
  · rw [hcall, State.byte_advance, State.byte, State.envResume_mem,
      Spaces.view_put_split _ _ _ _ hsplit (by decide), State.byte]
  · rw [hcall]; rfl

/-! ### What every effect does to memory -/

theorem Effect.wf_mem {s t : State} (he : Effect s t) (h : s.mem.wf) : t.mem.wf := by
  cases he with
  | word a v _ => exact s.wf_setWord .data a v h
  | byte a v _ => exact s.wf_setByte .data a v h
  | call n _ => exact s.wf_interruptCall n h
  | reg | flagged | flags | fallThrough | branch | jal => exact h

theorem Effect.byte_instr {s t : State} (he : Effect s t) (hsplit : s.mem.isUnified = false) (b : Word) :
    t.byte .instr b = s.byte .instr b := by
  cases he with
  | word a v _ => exact byte_instr_of_storeOnly (s.setWord_storeOnly a v) hsplit b
  | byte a v _ => exact byte_instr_of_storeOnly (s.setByte_storeOnly a v) hsplit b
  | call n _ => exact s.byte_instr_interruptCall n hsplit b
  | reg | flagged | flags | fallThrough | branch | jal => rfl

/-- An instruction outside the class that R42 lists leaves the arrays themselves. -/
theorem InstrEffect.mem_eq {i : Instr} {s t : State} (he : InstrEffect s i t) (hi : mayWriteMemory i = false) :
    t.mem = s.mem := by
  cases he with
  | word | byte | call => cases hi
  | reg | flagged | flags | fallThrough | branch | jal => rfl

/-! ### Reading back a stored word (R46, R58) -/

theorem checkWord_setWord (s : State) (sp : Space) (a v b : Word) : checkWord (s.setWord sp a v) b = checkWord s b := rfl

theorem checkByte_setWord (s : State) (sp : Space) (a v b : Word) : checkByte (s.setWord sp a v) b = checkByte s b := rfl

theorem memReadWord_setWord {s : State} {a : Word} (v : Word) (h : checkWord s a = .ok ()) :
    memReadWord (s.setWord .data a v) a = .ok v :=
  (memReadWord_ok _ a v).2 ⟨(checkWord_setWord s .data a v a).trans h, (s.word_setWord .data a v).symm⟩

theorem memReadByte_setWord_first {s : State} {a : Word} (v : Word) (h : checkByte s a = .ok ()) :
    memReadByte (s.setWord .data a v) a = .ok (hiByte v) :=
  (memReadByte_ok _ a _).2 ⟨(checkByte_setWord s .data a v a).trans h, by
    rw [State.byte_setWord, if_pos (.inl rfl), if_neg (Word.ne_add_one a), if_pos rfl]⟩

theorem memReadByte_setWord_second {s : State} {a : Word} (v : Word) (h : checkByte s (a + 1#16) = .ok ()) :
    memReadByte (s.setWord .data a v) (a + 1#16) = .ok (loByte v) :=
  (memReadByte_ok _ _ _).2 ⟨(checkByte_setWord s .data a v _).trans h, by
    rw [State.byte_setWord, if_pos (.inl rfl), if_pos rfl]⟩

/-! ### A load or store stops where the check of its access does (R285) -/

section
variable {s : State} {r a : Reg} {off : Nibble} {f : Fault}

theorem exec_ld_of_checkWord_error (h : checkWord s (s.wordAddr a off) = .error f) : exec (.ld r off a) s = .fault f := by
  rw [exec, execLd, (memReadWord_error s _ f).2 h, Except.map, finish_error]

theorem exec_st_of_checkWord_error (h : checkWord s (s.wordAddr a off) = .error f) : exec (.st r off a) s = .fault f := by
  rw [exec, execSt, (memWriteWord_error s _ _ f).2 h, finish_error]

theorem exec_ldb_of_checkByte_error (h : checkByte s (s.byteAddr a) = .error f) : exec (.ldb r a) s = .fault f := by
  rw [exec, execLdb, (memReadByte_error s _ f).2 h, Except.map, finish_error]

theorem exec_stb_of_checkByte_error (h : checkByte s (s.byteAddr a) = .error f) : exec (.stb r a) s = .fault f := by
  rw [exec, execStb, (memWriteByte_error s _ _ f).2 h, finish_error]

end

/-! ### The statements -/

/-- Settles O12: every effect keeps the arrays canonical, because every write of a byte does and what the environment
leaves is put in canonical form. -/
theorem stepKeepsMemoryCanonical : Obligations.StepKeepsMemoryCanonical := by
  intro s t hwf h
  rcases step_effect h with rfl | he
  · exact hwf
  · exact he.wf_mem hwf

/-- Settles O15: stores and the environment write data space only, which is an array of its own. -/
theorem splitInstructionSpaceNeverChanges : Obligations.SplitInstructionSpaceNeverChanges := by
  intro s t hsplit h a
  rcases step_effect h with rfl | he
  · rfl
  · exact he.byte_instr hsplit a

/-- Settles O18: by the effects an instruction of its class can have. -/
theorem onlyStoresAndIntChangeMemory : Obligations.OnlyStoresAndIntChangeMemory :=
  fun _ _ _ hi h => memKept_of_mem_eq ((exec_instrEffect h).mem_eq hi)

/-- Settles O22: the store leaves where memory is present, so the checks that it passed hold for the three loads. -/
theorem storedWordReadsBack : Obligations.StoredWordReadsBack := by
  intro s t a v h
  obtain ⟨hcheck, rfl⟩ := (memWriteWord_ok s a v t).1 h
  obtain ⟨_, hfirst, hsecond⟩ := (checkWord_ok s a ()).1 hcheck
  exact ⟨memReadWord_setWord v hcheck, memReadByte_setWord_first v ((checkByte_ok s a ()).2 hfirst),
    memReadByte_setWord_second v ((checkByte_ok s _ ()).2 hsecond), s.setWord_storeOnly a v⟩

/-- Settles O27: each stop is one case of `checkWord_error` or `checkByte_error`, and the instruction passes it on. -/
theorem loadsAndStoresStop : Obligations.LoadsAndStoresStop := by
  refine fun r a off s => ⟨fun hodd => ?misaligned, fun heven habsent => ?absentWord, fun habsent => ?absentByte⟩
  case misaligned =>
    have hcheck := (checkWord_error s _ _).2 (.inl ⟨hodd, rfl⟩)
    exact ⟨exec_ld_of_checkWord_error hcheck, exec_st_of_checkWord_error hcheck⟩
  case absentWord =>
    have hcheck := (checkWord_error s _ _).2 (.inr ⟨heven, habsent, rfl⟩)
    exact ⟨exec_ld_of_checkWord_error hcheck, exec_st_of_checkWord_error hcheck⟩
  case absentByte =>
    have hcheck := (checkByte_error s _ _).2 ⟨habsent, rfl⟩
    exact ⟨exec_ldb_of_checkByte_error hcheck, exec_stb_of_checkByte_error hcheck⟩

end Sys2Proof.Machine

/-! PROOFS. The statements of spec/30_encoding.md: the word of an instruction decodes to it, every other word is refused,
the opcode table agrees, and the displacement of a branch. -/

namespace Sys2Proof

open Machine

/-! ### A word with known upper fields -/

theorem pack4_of_nib3 {w : Word} {o : Nibble} (h : nib3 w = o) : pack4 o (nib2 w) (nib1 w) (nib0 w) = w :=
  h ▸ pack4_nibbles w

theorem pack8_of_nib3 {w : Word} {o : Nibble} (h : nib3 w = o) : pack8 o (nib2 w) (loByte w) = w :=
  h ▸ pack8_parts w

theorem pack4_of_nib3_nib2 {w : Word} {o a : Nibble} (h3 : nib3 w = o) (h2 : nib2 w = a) :
    pack4 o a (nib1 w) (nib0 w) = w :=
  h2 ▸ pack4_of_nib3 h3

theorem pack8_of_nib3_nib2 {w : Word} {o a : Nibble} (h3 : nib3 w = o) (h2 : nib2 w = a) : pack8 o a (loByte w) = w :=
  h2 ▸ pack8_of_nib3 h3

/-- The value left when the fifteen rows of a map are excluded (R72, R73). -/
theorem nibble_eq_ones {n : Nibble}
    (h : n ∉ [0x0#4, 0x1#4, 0x2#4, 0x3#4, 0x4#4, 0x5#4, 0x6#4, 0x7#4, 0x8#4, 0x9#4, 0xa#4, 0xb#4, 0xc#4, 0xd#4, 0xe#4]) :
    n = 0xf#4 := by
  revert n; decide

theorem toNat_div_of_ushiftRight_eq {w v : Word} {k : Nat} (h : w >>> k = v) : w.toNat / 2 ^ k = v.toNat := by
  rw [← h, BitVec.toNat_ushiftRight, Nat.shiftRight_eq_div_pow]

theorem nib3_eq_ones_iff (w : Word) : nib3 w = 0xf#4 ↔ w.toNat / 4096 = 15 := by
  rw [← BitVec.toNat_inj, nib3_toNat, BitVec.toNat_ofNat]
  have := w.isLt; omega

/-- The words of the tertiary map are the topmost 256 (R74). -/
theorem tertiary_iff (w : Word) : nib3 w = 0xf#4 ∧ nib2 w = 0xf#4 ↔ 0xff00 ≤ w.toNat := by
  rw [nib3_eq_ones_iff, ← BitVec.toNat_inj, nib2_toNat, BitVec.toNat_ofNat]
  have := w.isLt; omega

/-! ### The 7-bit field of `int`, within the lower half of its word -/

theorem getLsbD_seven_loByte (w : Word) : (loByte w).getLsbD 7 = w.getLsbD 7 := by simp [loByte]

theorem setWidth_seven_loByte (w : Word) : (loByte w).setWidth 7 = w.extractLsb' 0 7 := by
  ext i hi
  simp [loByte]
  omega

theorem setWidth_seven_setWidth {b : Byte} (h : b.getLsbD 7 = false) : (b.setWidth 7).setWidth 8 = b := by
  revert b; decide

theorem and_bit_seven {b : Byte} (h : b.getLsbD 7 = true) : b &&& 0x80#8 = 0x80#8 := by
  revert b; decide

/-- A word of the secondary map's row 0xc with bit 7 clear is the word of an `int`. -/
theorem encode_int_of_fields {w : Word} (h3 : nib3 w = 0xf#4) (h2 : nib2 w = 0xc#4) (h7 : w.getLsbD 7 = false) :
    encode (.int (w.extractLsb' 0 7)) = w := by
  rw [encode, ← setWidth_seven_loByte, setWidth_seven_setWidth ((getLsbD_seven_loByte w).trans h7),
    pack8_of_nib3_nib2 h3 h2]

/-! ### Decoding an encoded instruction -/

theorem decode_of_nib3_eq_ones {w : Word} (h : nib3 w = 0xf#4) : decode w = decodeSecondary w := by
  simp [decode, h]

theorem decodeSecondary_int {w : Word} (h : nib2 w = 0xc#4) :
    decodeSecondary w =
      if w.getLsbD 7 then .error (.reservedInstruction w) else .ok (.int (w.extractLsb' 0 7)) := by
  simp [decodeSecondary, h]

theorem decodeSecondary_tertiary {w : Word} (h : nib2 w = 0xf#4) :
    decodeSecondary w =
      if w = 0xfff0#16 then .ok .nop else if w = 0xffff#16 then .ok .iret else .error (.reservedInstruction w) := by
  simp [decodeSecondary, h]

theorem decode_encode_int (n : BitVec 7) : decode (encode (.int n)) = .ok (.int n) := by
  have h7 : (pack8 0xf#4 0xc#4 (n.setWidth 8)).getLsbD 7 = false := by
    rw [← getLsbD_seven_loByte, loByte_pack8]; simp
  have hfield : (pack8 0xf#4 0xc#4 (n.setWidth 8)).extractLsb' 0 7 = n := by
    rw [← setWidth_seven_loByte, loByte_pack8]; simp
  rw [encode, decode_of_nib3_eq_ones (nib3_pack8 ..), decodeSecondary_int (nib2_pack8 ..), h7, hfield]
  rfl

/-- The fields of a packed word select the row of its instruction and give its operands back. -/
theorem decode_encode (i : Instr) : decode (encode i) = .ok i := by
  cases i with
  | int n => exact decode_encode_int n
  | nop => rfl
  | iret => rfl
  | _ => simp [encode, decode, decodeSecondary]

theorem decode_of_encode_eq {i : Instr} {w : Word} (h : encode i = w) : decode w = .ok i := h ▸ decode_encode i

/-! ### Everything the decoder can answer -/

/-- The two holes of the secondary and tertiary maps (R82). -/
inductive Unassigned (w : Word) : Prop
  /-- `int` with bit 7 set. -/
  | int (h3 : nib3 w = 0xf#4) (h2 : nib2 w = 0xc#4) (h7 : w.getLsbD 7 = true)
  /-- The tertiary map but for `nop` and `iret`. -/
  | tertiary (h3 : nib3 w = 0xf#4) (h2 : nib2 w = 0xf#4) (hnop : w ≠ 0xfff0#16) (hiret : w ≠ 0xffff#16)

theorem decode_primary {w : Word} (h3 : nib3 w ≠ 0xf#4) : ∃ i, decode w = .ok i ∧ encode i = w := by
  unfold decode
  split
  case h_8 h | h_15 h => exact ⟨_, rfl, by rw [encode, Reg.field_ofField, pack8_of_nib3 h]⟩
  case h_16 => exact absurd (nibble_eq_ones (by simp_all)) h3
  all_goals exact ⟨_, rfl, by simp only [encode, Reg.field_ofField, pack4_of_nib3 ‹_›]⟩

theorem decodeSecondary_cases {w : Word} (h3 : nib3 w = 0xf#4) :
    (∃ i, decodeSecondary w = .ok i ∧ encode i = w) ∨
    (Unassigned w ∧ decodeSecondary w = .error (.reservedInstruction w)) := by
  unfold decodeSecondary
  split
  case h_7 h2 | h_8 h2 | h_9 h2 | h_10 h2 | h_11 h2 | h_12 h2 => exact .inl ⟨_, rfl, pack8_of_nib3_nib2 h3 h2⟩
  case h_13 h2 =>
    split
    next h7 => exact .inr ⟨.int h3 h2 h7, rfl⟩
    next h7 => exact .inl ⟨_, rfl, encode_int_of_fields h3 h2 (Bool.eq_false_iff.2 h7)⟩
  case h_16 =>
    have h2 : nib2 w = 0xf#4 := nibble_eq_ones (by simp_all)
    split
    next hnop => exact .inl ⟨.nop, rfl, hnop.symm⟩
    next hnop =>
      split
      next hiret => exact .inl ⟨.iret, rfl, hiret.symm⟩
      next hiret => exact .inr ⟨.tertiary h3 h2 hnop hiret, rfl⟩
  all_goals exact .inl ⟨_, rfl, by simp only [encode, Reg.field_ofField, pack4_of_nib3_nib2 h3 ‹_›]⟩

/-- A word is the word of the instruction it decodes to, or it is unassigned and refused by name (R84). -/
theorem decode_cases (w : Word) :
    (∃ i, decode w = .ok i ∧ encode i = w) ∨ (Unassigned w ∧ decode w = .error (.reservedInstruction w)) := by
  by_cases h3 : nib3 w = 0xf#4
  · rw [decode_of_nib3_eq_ones h3]
    exact decodeSecondary_cases h3
  · exact .inl (decode_primary h3)

theorem encode_of_decode {w : Word} {i : Instr} (h : decode w = .ok i) : encode i = w := by
  obtain ⟨j, hj, he⟩ | ⟨_, herr⟩ := decode_cases w
  · cases hj.symm.trans h
    exact he
  · cases herr.symm.trans h

theorem decode_of_unassigned {w : Word} (h : Unassigned w) : decode w = .error (.reservedInstruction w) := by
  cases h with
  | int h3 h2 h7 => rw [decode_of_nib3_eq_ones h3, decodeSecondary_int h2, if_pos h7]
  | tertiary h3 h2 hnop hiret => 
    rw [decode_of_nib3_eq_ones h3, decodeSecondary_tertiary h2, if_neg hnop, if_neg hiret]

theorem decode_error_iff (w : Word) : decode w = .error (.reservedInstruction w) ↔ Unassigned w := by
  refine ⟨fun h => ?_, decode_of_unassigned⟩
  obtain ⟨i, hi, _⟩ | ⟨hu, _⟩ := decode_cases w
  · cases hi.symm.trans h
  · exact hu

/-! ### The holes as ranges of numbers (R82) -/

theorem spareInt_iff (w : Word) :
    (nib3 w = 0xf#4 ∧ nib2 w = 0xc#4 ∧ w.getLsbD 7 = true) ↔ 0xfc80 ≤ w.toNat ∧ w.toNat ≤ 0xfcff := by
  rw [nib3_eq_ones_iff, ← BitVec.toNat_inj, nib2_toNat, BitVec.toNat_ofNat, BitVec.getLsbD,
    Nat.testBit_eq_decide_div_mod_eq, decide_eq_true_iff]
  have := w.isLt; omega

theorem spareTertiary_iff (w : Word) :
    (0xff00 ≤ w.toNat ∧ w ≠ 0xfff0#16 ∧ w ≠ 0xffff#16) ↔
      (0xff00 ≤ w.toNat ∧ w.toNat ≤ 0xffef) ∨ (0xfff1 ≤ w.toNat ∧ w.toNat ≤ 0xfffe) := by
  rw [Ne, Ne, ← BitVec.toNat_inj, ← BitVec.toNat_inj, BitVec.toNat_ofNat, BitVec.toNat_ofNat]
  have := w.isLt; omega

theorem unassigned_iff (w : Word) :
    Unassigned w ↔
      (nib3 w = 0xf#4 ∧ nib2 w = 0xc#4 ∧ w.getLsbD 7 = true) ∨ (0xff00 ≤ w.toNat ∧ w ≠ 0xfff0#16 ∧ w ≠ 0xffff#16) := by
  rw [← tertiary_iff]
  constructor
  · rintro (⟨h3, h2, h7⟩ | ⟨h3, h2, hnop, hiret⟩)
    · exact .inl ⟨h3, h2, h7⟩
    · exact .inr ⟨⟨h3, h2⟩, hnop, hiret⟩
  · rintro (⟨h3, h2, h7⟩ | ⟨⟨h3, h2⟩, hnop, hiret⟩)
    · exact .int h3 h2 h7
    · exact .tertiary h3 h2 hnop hiret

/-! ### The rows of the opcode table (R84) -/

namespace OpcodeRow

variable {r q : OpcodeRow} {w : Word}

theorem fits_iff : r.fits w = true ↔ w &&& r.mask = r.value := beq_iff_eq

/-- Two rows that differ on a bit both of them fix. -/
abbrev Apart (r q : OpcodeRow) : Prop := r.value &&& q.mask ≠ q.value &&& r.mask

theorem Apart.not_fits (h : Apart r q) (hr : r.fits w = true) : q.fits w ≠ true := by
  intro hq
  apply h
  rw [← fits_iff.1 hr, ← fits_iff.1 hq, BitVec.and_assoc, BitVec.and_assoc, BitVec.and_comm r.mask]

end OpcodeRow

theorem opcodeTable_pairwise_apart : opcodeTable.Pairwise OpcodeRow.Apart := by
  rw [opcodeTable, List.pairwise_append]
  exact ⟨by decide, by decide, by decide⟩

/-- No word fits two rows of the table. -/
theorem row_unique {r q : OpcodeRow} {w : Word} (hr : r ∈ opcodeTable) (hq : q ∈ opcodeTable) (hrw : r.fits w = true)
    (hqw : q.fits w = true) : r = q := by
  have : Std.Symm OpcodeRow.Apart := ⟨fun _ _ => Ne.symm⟩
  by_contra hne
  exact (opcodeTable_pairwise_apart.forall hr hq hne).not_fits hrw hqw

/-- The hole in the row of `int` as a row of its own: bit 7 is fixed too, and set. -/
def spareIntRow : OpcodeRow := ⟨"int with bit 7 set", 0xff80#16, 0xfc80#16⟩

/-- The tertiary map as one row, the two rows of the table within it included. -/
def tertiaryRow : OpcodeRow := ⟨"tertiary map", 0xff00#16, 0xff00#16⟩

theorem spareIntRow_fits {w : Word} (h3 : nib3 w = 0xf#4) (h2 : nib2 w = 0xc#4) (h7 : w.getLsbD 7 = true) :
    spareIntRow.fits w = true := by
  have hmask : spareIntRow.mask = pack8 0xf#4 0xf#4 0x80#8 := by decide
  rw [OpcodeRow.fits_iff, ← pack8_of_nib3_nib2 h3 h2, hmask, pack8_and,
    and_bit_seven ((getLsbD_seven_loByte w).trans h7)]
  decide

theorem tertiaryRow_fits {w : Word} (h3 : nib3 w = 0xf#4) (h2 : nib2 w = 0xf#4) : tertiaryRow.fits w = true := by
  rw [OpcodeRow.fits_iff, ← pack8_of_nib3_nib2 h3 h2, tertiaryRow, Laws.pack8_fits_secondary]
  decide

theorem row_apart_spareIntRow : ∀ r ∈ opcodeTable, r.Apart spareIntRow := by decide

/-- The tertiary map holds two rows of the table, each of a single word. -/
theorem row_apart_tertiaryRow_or_single :
    ∀ r ∈ opcodeTable,
      r.Apart tertiaryRow ∨ r.mask = 0xffff#16 ∧ (r.value = 0xfff0#16 ∨ r.value = 0xffff#16) := by
  decide

theorem not_unassigned_of_fits {r : OpcodeRow} {w : Word} (hr : r ∈ opcodeTable) (hrw : r.fits w = true) :
    ¬ Unassigned w := by
  rintro (⟨h3, h2, h7⟩ | ⟨h3, h2, hnop, hiret⟩)
  · exact (row_apart_spareIntRow r hr).not_fits hrw (spareIntRow_fits h3 h2 h7)
  · obtain hapart | ⟨hmask, hvalue⟩ := row_apart_tertiaryRow_or_single r hr
    · exact hapart.not_fits hrw (tertiaryRow_fits h3 h2)
    · have hw : w = r.value := by
        rw [← OpcodeRow.fits_iff.1 hrw, hmask]
        exact BitVec.and_allOnes.symm
      exact hvalue.elim (fun h => hnop (hw.trans h)) (fun h => hiret (hw.trans h))

open Laws in
/-- The word of every instruction fits its row, which stands in the table. -/
theorem fitsRow : ∀ i, FitsRow.Statement i
  | .add d a b => FitsRow.add d a b
  | .sub d a b => FitsRow.sub d a b
  | .rol d a n => FitsRow.rol d a n
  | .ror d a n => FitsRow.ror d a n
  | .and d a b => FitsRow.and d a b
  | .or d a b => FitsRow.or d a b
  | .ld d n a => FitsRow.ld d n a
  | .sethi d i => FitsRow.sethi d i
  | .sl d a n => FitsRow.sl d a n
  | .sr d a n => FitsRow.sr d a n
  | .srl d a n => FitsRow.srl d a n
  | .xor d a b => FitsRow.xor d a b
  | .jal d a b => FitsRow.jal d a b
  | .st d n a => FitsRow.st d n a
  | .movbImm d i => FitsRow.movbImm d i
  | .not d a => FitsRow.not d a
  | .cmp d a => FitsRow.cmp d a
  | .ldb d a => FitsRow.ldb d a
  | .stb d a => FitsRow.stb d a
  | .lds d n => FitsRow.lds d n
  | .sts d n => FitsRow.sts d n
  | .bl i => FitsRow.bl i
  | .be i => FitsRow.be i
  | .bne i => FitsRow.bne i
  | .bge i => FitsRow.bge i
  | .bg i => FitsRow.bg i
  | .b i => FitsRow.b i
  | .int m => FitsRow.int m
  | .subi d n => FitsRow.subi d n
  | .addi d n => FitsRow.addi d n
  | .nop => FitsRow.nop
  | .iret => FitsRow.iret

theorem rowOf_fits_of_decode {w : Word} {i : Instr} (h : decode w = .ok i) :
    rowOf i ∈ opcodeTable ∧ (rowOf i).fits w = true := by
  obtain ⟨hfits, hmem⟩ := fitsRow i
  exact ⟨hmem, encode_of_decode h ▸ hfits⟩

theorem decode_of_fits {r : OpcodeRow} {w : Word} (hr : r ∈ opcodeTable) (hrw : r.fits w = true) :
    ∃ i, decode w = .ok i ∧ rowOf i = r := by
  obtain ⟨i, hi, _⟩ | ⟨hu, _⟩ := decode_cases w
  · obtain ⟨hmem, hfits⟩ := rowOf_fits_of_decode hi
    exact ⟨i, hi, row_unique hmem hr hfits hrw⟩
  · exact absurd hu (not_unassigned_of_fits hr hrw)

/-! ### The source's expressions for a word (R72, R73) -/

theorem setWidth_append_eq_or {n m k : Nat} (x : BitVec n) (y : BitVec m) :
    (x ++ y).setWidth k = x.setWidth k <<< m ||| y.setWidth k := by
  ext i hi
  by_cases h : i < m
  · simp [BitVec.getLsbD_append, h]
  · simp [BitVec.getLsbD_append, h, BitVec.getLsbD_of_ge y i (Nat.le_of_not_lt h)]

theorem pack4_eq_or (o a b c : Nibble) :
    pack4 o a b c = o.setWidth 16 <<< 12 ||| a.setWidth 16 <<< 8 ||| b.setWidth 16 <<< 4 ||| c.setWidth 16 := by
  rw [pack4, ← BitVec.setWidth_eq (o ++ a ++ b ++ c), setWidth_append_eq_or, setWidth_append_eq_or, setWidth_append_eq_or]
  simp only [BitVec.shiftLeft_or_distrib, ← BitVec.shiftLeft_add]

theorem pack8_eq_or (o a : Nibble) (i : Byte) :
    pack8 o a i = o.setWidth 16 <<< 12 ||| a.setWidth 16 <<< 8 ||| i.setWidth 16 := by
  rw [pack8, ← BitVec.setWidth_eq (o ++ a ++ i), setWidth_append_eq_or, setWidth_append_eq_or]
  simp only [BitVec.shiftLeft_or_distrib, ← BitVec.shiftLeft_add]

theorem encode_int_eq_or (m : BitVec 7) : encode (.int m) = 0xfc00#16 ||| m.setWidth 16 := by
  rw [encode, pack8_eq_or, BitVec.setWidth_setWidth (by decide)]
  rfl

/-- `base` is the literal of a row with, in the primary map, the field after the opcode already in it. -/
theorem decode_of_pack4 {i : Instr} {o a b c : Nibble} {base : Word} (h : encode i = pack4 o a b c)
    (hbase : o.setWidth 16 <<< 12 ||| a.setWidth 16 <<< 8 = base) :
    decode (base ||| b.setWidth 16 <<< 4 ||| c.setWidth 16) = .ok i :=
  decode_of_encode_eq (hbase ▸ h.trans (pack4_eq_or o a b c))

theorem decode_of_pack8 {i : Instr} {o a : Nibble} {v : Byte} {base : Word} (h : encode i = pack8 o a v)
    (hbase : o.setWidth 16 <<< 12 ||| a.setWidth 16 <<< 8 = base) : decode (base ||| v.setWidth 16) = .ok i :=
  decode_of_encode_eq (hbase ▸ h.trans (pack8_eq_or o a v))

/-! ### The displacement of a branch (R80) -/

theorem signExtend_toNat (d : Byte) : ((d.signExtend 16).toNat : Int) = d.toInt % 65536 := by
  rw [BitVec.signExtend, BitVec.toNat_ofInt]
  omega

theorem Machine.State.branchTarget_toNat (s : State) (d : Byte) :
    ((s.branchTarget d).toNat : Int) = ((s.pc.toNat : Int) + 2 + 2 * d.toInt) % 65536 := by
  have hd := signExtend_toNat d
  rw [State.branchTarget, BitVec.toNat_add, BitVec.toNat_add, BitVec.toNat_shiftLeft, Nat.shiftLeft_eq,
    BitVec.toNat_ofNat]
  omega

/-- A displacement reaches from the pc by a constant: the step to the next instruction and the doubled field. -/
theorem Machine.State.branchTarget_eq_add (s : State) (d : Byte) : s.branchTarget d = s.pc + (2#16 + d.signExtend 16 <<< 1) :=
  BitVec.add_assoc ..

/-! ### The statements -/

/-- Settles O1: `decode_encode`, by cases on the instruction. -/
theorem decodeOfEncodeIsTheInstruction : Obligations.DecodeOfEncodeIsTheInstruction := decode_encode

/-- Settles O2: by the cases of what the decoder can answer. -/
theorem encodeOfDecodedWordIsTheWord : Obligations.EncodeOfDecodedWordIsTheWord := fun _ _ => encode_of_decode

/-- Settles O3: the refused words are the two holes of the maps, and as numbers these are three ranges. -/
theorem unassignedWordsAreExactlyTheThreeRanges : Obligations.UnassignedWordsAreExactlyTheThreeRanges := by
  intro w
  rw [decode_error_iff, unassigned_iff, spareInt_iff, spareTertiary_iff]

/-- Settles O4: the rows of the table differ pairwise on a bit both fix, and each differs so from the holes. -/
theorem decodeSelectsTheOneFittingRow : Obligations.DecodeSelectsTheOneFittingRow :=
  fun _ => ⟨fun _ hr _ hq => row_unique hr hq, fun _ => rowOf_fits_of_decode, fun _ => decode_of_fits⟩

/-- Settles O5: each expression is the word of its instruction, field by field. -/
theorem primaryMapDecodes : Obligations.PrimaryMapDecodes := by
  refine ⟨fun d a b n i => ?rows, fun w hw => ?secondary⟩
  case rows =>
    exact ⟨decode_of_pack4 (i := .add d a b) rfl rfl, decode_of_pack4 (i := .sub d a b) rfl rfl,
      decode_of_pack4 (i := .rol d a n) rfl rfl, decode_of_pack4 (i := .ror d a n) rfl rfl,
      decode_of_pack4 (i := .and d a b) rfl rfl, decode_of_pack4 (i := .or d a b) rfl rfl,
      decode_of_pack4 (i := .ld d n b) rfl rfl, decode_of_pack8 (i := .sethi d i) rfl rfl,
      decode_of_pack4 (i := .sl d a n) rfl rfl, decode_of_pack4 (i := .sr d a n) rfl rfl,
      decode_of_pack4 (i := .srl d a n) rfl rfl, decode_of_pack4 (i := .xor d a b) rfl rfl,
      decode_of_pack4 (i := .jal d a b) rfl rfl, decode_of_pack4 (i := .st d n b) rfl rfl,
      decode_of_pack8 (i := .movbImm d i) rfl rfl⟩
  case secondary =>
    exact decode_of_nib3_eq_ones ((nib3_eq_ones_iff w).2 (toNat_div_of_ushiftRight_eq hw))

/-- Settles O7: the topmost 256 words are the tertiary map, where a word that is neither `nop` nor `iret` is unassigned. -/
theorem tertiaryMapHasExactlyTwoWords : Obligations.TertiaryMapHasExactlyTwoWords := by
  intro w hw
  obtain ⟨h3, h2⟩ := (tertiary_iff w).2 hw
  exact ⟨fun h => decode_of_encode_eq (i := .nop) h.symm, fun h => decode_of_encode_eq (i := .iret) h.symm,
    fun hnop hiret => decode_of_unassigned (.tertiary h3 h2 hnop hiret)⟩

/-- Settles O6: each expression is the word of its instruction, and the tertiary map has the two words of O7. -/
theorem secondaryMapDecodes : Obligations.SecondaryMapDecodes := by
  refine ⟨fun b c n i m => ?rows, fun w i hw hi => ?tertiary⟩
  case rows =>
    exact ⟨decode_of_pack4 (i := .not b c) rfl rfl, decode_of_pack4 (i := .cmp b c) rfl rfl,
      decode_of_pack4 (i := .ldb b c) rfl rfl, decode_of_pack4 (i := .stb b c) rfl rfl,
      decode_of_pack4 (i := .lds b n) rfl rfl, decode_of_pack4 (i := .sts b n) rfl rfl,
      decode_of_pack8 (i := .bl i) rfl rfl, decode_of_pack8 (i := .be i) rfl rfl, decode_of_pack8 (i := .bne i) rfl rfl,
      decode_of_pack8 (i := .bge i) rfl rfl, decode_of_pack8 (i := .bg i) rfl rfl, decode_of_pack8 (i := .b i) rfl rfl,
      decode_of_encode_eq (encode_int_eq_or m), decode_of_pack4 (i := .subi b n) rfl rfl,
      decode_of_pack4 (i := .addi b n) rfl rfl⟩
  case tertiary =>
    have hupper : w.toNat / 256 = 0xff := toNat_div_of_ushiftRight_eq hw
    obtain ⟨hnop, hiret, hrest⟩ := tertiaryMapHasExactlyTwoWords w (by omega)
    by_cases h : w = 0xfff0#16
    · exact .inl ⟨h, Except.ok.inj (hi.symm.trans (hnop h))⟩
    · by_cases h' : w = 0xffff#16
      · exact .inr ⟨h', Except.ok.inj (hi.symm.trans (hiret h'))⟩
      · cases hi.symm.trans (hrest h h')

/-- Settles O43: the target as an integer, the reach of a signed byte, and three fields by their constants. -/
theorem branchTargetIsDoubledSignedDisplacement : Obligations.BranchTargetIsDoubledSignedDisplacement := by
  intro s d
  have hlow := d.le_toInt
  have hhigh := d.toInt_lt
  refine ⟨s.branchTarget_toNat d, by omega, by omega, ?next, ?itself, ?before⟩
  all_goals rw [s.branchTarget_eq_add]
  case next => rfl
  case itself => exact BitVec.add_zero s.pc
  case before => exact (BitVec.sub_eq_add_neg s.pc 2#16).symm

/-- Settles O8: nine words are encodings by evaluation, and the tenth has the fields of the hole in the row of `int`. -/
theorem sampleWordsDecode : Obligations.SampleWordsDecode :=
  ⟨decode_of_encode_eq rfl, decode_of_encode_eq rfl, decode_of_encode_eq rfl, decode_of_encode_eq rfl,
    decode_of_encode_eq rfl, decode_of_encode_eq rfl, decode_of_encode_eq rfl, decode_of_encode_eq rfl,
    decode_of_encode_eq rfl, decode_of_unassigned (.int rfl rfl rfl)⟩

end Sys2Proof

/-! PROOFS. The statements of spec/40_move_load_store.md: what a move, a load and a store do, their aliases, and what the
assembler makes of each form. -/

namespace Sys2Proof.Machine

open Sys2Proof.Safety Sys2Proof.Asm

/-! ### A register written, then the next instruction -/

theorem State.x_setX_self (s : State) (d : Reg) (v : Word) : (s.setX d v).x d = if d = .r0 then 0#16 else v := by
  rw [State.x_setX, if_pos rfl]

theorem State.toNat_x_setX_self (s : State) (d : Reg) (v : Word) :
    ((s.setX d v).x d).toNat = if d = .r0 then 0 else v.toNat := by
  rw [State.x_setX_self, apply_ite BitVec.toNat, BitVec.toNat_zero]

/-- The later of two writes to one register counts. -/
theorem State.setX_setX (s : State) (d : Reg) (v w : Word) : (s.setX d v).setX d w = s.setX d w := by
  cases d <;> rfl

theorem State.setX_advance_regOnly (s : State) (d : Reg) (v : Word) : RegOnly d s (s.setX d v).advance :=
  ⟨fun r hr => s.x_setX_other d r v hr, rfl, fun _ _ => rfl, rfl, rfl, rfl, rfl, rfl, rfl, rfl⟩

/-- The pc is no part of what `RegOnly` keeps. -/
theorem regOnly_advance {d : Reg} {s t : State} (h : RegOnly d s t) : RegOnly d s t.advance := h

/-- The pc is no part of what `StoreOnly` keeps. -/
theorem storeOnly_advance {stored : List Word} {s t : State} (h : StoreOnly stored s t) :
    StoreOnly stored s t.advance := h

theorem State.word_advance (s : State) (sp : Space) (a : Word) : s.advance.word sp a = s.word sp a := rfl

/-! ### Halves of a word and effective addresses as numbers (R76, R77, R103) -/

theorem upperHalf_toNat (i : Byte) : (upperHalf i).toNat = i.toNat * 256 := by
  rw [upperHalf, ofBytes_toNat, BitVec.toNat_zero, Nat.add_zero]

theorem replaceLower_toNat (w : Word) (l : Byte) : (replaceLower w l).toNat = w.toNat / 256 * 256 + l.toNat := by
  rw [replaceLower, ofBytes_toNat, hiByte_toNat]

theorem wordOffset_toNat (off : Nibble) : (wordOffset off).toNat = 2 * off.toNat := by
  rw [wordOffset, BitVec.toNat_shiftLeft, BitVec.toNat_setWidth, Nat.shiftLeft_eq]
  have := off.isLt
  omega

theorem State.wordAddr_toNat (s : State) (a : Reg) (off : Nibble) :
    (s.wordAddr a off).toNat = ((s.x a).toNat + 2 * off.toNat) % 65536 := by
  rw [State.wordAddr, BitVec.toNat_add, wordOffset_toNat]

/-- With offset 0 the base is the effective address (R104, R107). -/
theorem State.wordAddr_zero (s : State) (a : Reg) : s.wordAddr a 0#4 = s.x a := BitVec.add_zero _

/-! ### What each instruction of the family answers -/

theorem exec_sethi (d : Reg) (i : Byte) (s : State) : exec (.sethi d i) s = .next (s.setX d (upperHalf i)).advance := rfl

theorem exec_movbImm (d : Reg) (i : Byte) (s : State) :
    exec (.movbImm d i) s = .next (s.setX d (replaceLower (s.x d) i)).advance := rfl

/-- `or` with register 0 copies (R101). -/
theorem exec_or_r0 (d a : Reg) (s : State) : exec (.or d .r0 a) s = .next (s.setX d (s.x a)).advance := by
  rw [exec, execOr, State.x_r0, BitVec.zero_or, finish_ok]

section
variable {s : State} {r a : Reg} {off : Nibble}

theorem exec_ld_of_checkWord_ok (h : checkWord s (s.wordAddr a off) = .ok ()) :
    exec (.ld r off a) s = .next (s.setX r (s.word .data (s.wordAddr a off))).advance := by
  rw [exec, execLd, (memReadWord_ok s _ _).2 ⟨h, rfl⟩, Except.map, finish_ok]

theorem exec_st_of_checkWord_ok (h : checkWord s (s.wordAddr a off) = .ok ()) :
    exec (.st r off a) s = .next (s.setWord .data (s.wordAddr a off) (s.x r)).advance := by
  rw [exec, execSt, (memWriteWord_ok s _ _ _).2 ⟨h, rfl⟩, finish_ok]

theorem exec_ldb_of_checkByte_ok (h : checkByte s (s.byteAddr a) = .ok ()) :
    exec (.ldb r a) s = .next (s.setX r (replaceLower (s.x r) (s.byte .data (s.byteAddr a)))).advance := by
  rw [exec, execLdb, (memReadByte_ok s _ _).2 ⟨h, rfl⟩, Except.map, finish_ok]

theorem exec_stb_of_checkByte_ok (h : checkByte s (s.byteAddr a) = .ok ()) :
    exec (.stb r a) s = .next (s.setByte .data (s.byteAddr a) (loByte (s.x r))).advance := by
  rw [exec, execStb, (memWriteByte_ok s _ _ _).2 ⟨h, rfl⟩, finish_ok]

end

/-! ### The bytes a store leaves at its address (R44) -/

theorem State.byte_setByte_self (s : State) (a : Word) (v : Byte) : (s.setByte .data a v).byte .data a = v := by
  rw [State.byte_setByte, if_pos ⟨.inl rfl, rfl⟩]

theorem State.byte_setWord_first (s : State) (a v : Word) : (s.setWord .data a v).byte .data a = hiByte v := by
  rw [State.byte_setWord, if_pos (.inl rfl), if_neg (Word.ne_add_one a), if_pos rfl]

theorem State.byte_setWord_second (s : State) (a v : Word) :
    (s.setWord .data a v).byte .data (a + 1#16) = loByte v := by
  rw [State.byte_setWord, if_pos (.inl rfl), if_pos rfl]

/-! ### System registers (R75, R108, R109) -/

theorem sysReg_of_le_three {n : Nibble} (h : n.toNat ≤ 3) : ∃ r, SysReg.ofField n = some r :=
  Option.isSome_iff_exists.1 ((SysReg.ofField_isSome n).trans (decide_eq_true h))

theorem no_sysReg_of_three_lt {n : Nibble} (h : 3 < n.toNat) : SysReg.ofField n = none :=
  Option.not_isSome_iff_eq_none.1 (by rw [SysReg.ofField_isSome, namesSysReg, decide_eq_true_iff]; omega)

theorem sysReg_field_of_ofField {n : Nibble} {r : SysReg} (h : SysReg.ofField n = some r) : n = r.field := by
  cases r <;> (revert n; decide)

/-- The value of a system register by its number (R30, R75). -/
theorem State.readSys_of_ofField (s : State) {n : Nibble} {r : SysReg} (h : SysReg.ofField n = some r) :
    s.readSys r = if n = 0#4 then s.pc else if n = 1#4 then s.ps else if n = 2#4 then s.pt else s.tt := by
  rw [sysReg_field_of_ofField h]
  cases r <;> rfl

section
variable {s : State} {n : Nibble} {q : SysReg} (r : Reg)

theorem exec_lds_of_sysReg (hk : s.k = true) (hn : SysReg.ofField n = some q) :
    exec (.lds r n) s = .next (s.setX r (s.readSys q)).advance := by
  simp only [exec, execLds, privileged_supervisor _ _ _ hk, hn, finish_ok]

theorem exec_lds_of_no_sysReg (hk : s.k = true) (hn : SysReg.ofField n = none) :
    exec (.lds r n) s = .fault (.unspecified "system register number > 3") := by
  simp only [exec, execLds, privileged_supervisor _ _ _ hk, hn, raise_eq]

theorem exec_sts_of_sysReg (hk : s.k = true) (hn : SysReg.ofField n = some q) :
    exec (.sts r n) s = .fault (.unspecified "sts in supervisor mode") := by
  simp only [exec, execSts, privileged_supervisor _ _ _ hk, hn, raise_eq]

theorem exec_sts_of_no_sysReg (hk : s.k = true) (hn : SysReg.ofField n = none) :
    exec (.sts r n) s = .fault (.unspecified "system register number > 3") := by
  simp only [exec, execSts, privileged_supervisor _ _ _ hk, hn, raise_eq]

theorem exec_iret_supervisor (hk : s.k = true) : exec .iret s = .fault (.unspecified "iret in supervisor mode") := by
  rw [exec, execIret, privileged_supervisor _ _ _ hk, raise_eq]

end

/-! ### Instructions in sequence -/

theorem execSeq_cons_of_next {i : Instr} {s t : State} (is : List Instr) (h : exec i s = .next t) :
    execSeq (i :: is) s = execSeq is t := by
  rw [execSeq, h]

theorem execSeq_singleton_of_next {i : Instr} {s t : State} (h : exec i s = .next t) : execSeq [i] s = .next t := by
  rw [execSeq_cons_of_next [] h, execSeq]

/-! ### The constant load (R100) and what follows it through `%t6` (R102, R105) -/

/-- `s` with `v` in register `d` and the pc two instructions on. -/
def State.afterLoadConst (s : State) (d : Reg) (v : Word) : State := (s.setX d v).advance.advance

theorem State.afterLoadConst_pc (s : State) (d : Reg) (v : Word) : (s.afterLoadConst d v).pc = s.pc + 4#16 :=
  BitVec.add_assoc ..

/-- Two instructions on, then one more. -/
theorem State.afterLoadConst_pc_add_two (s : State) (d : Reg) (v : Word) :
    (s.afterLoadConst d v).pc + 2#16 = s.pc + 6#16 := by
  rw [State.afterLoadConst_pc, BitVec.add_assoc, show 4#16 + 2#16 = 6#16 from rfl]

theorem State.x_afterLoadConst (s : State) (d q : Reg) (v : Word) :
    (s.afterLoadConst d v).x q = if q = d then (if d = .r0 then 0#16 else v) else s.x q := s.x_setX d q v

theorem State.x_afterLoadConst_self (s : State) (d : Reg) (v : Word) (h : d ≠ .r0) :
    (s.afterLoadConst d v).x d = v := s.x_setX_same d v h

theorem State.x_afterLoadConst_other (s : State) (d q : Reg) (v : Word) (h : q ≠ d) :
    (s.afterLoadConst d v).x q = s.x q := s.x_setX_other d q v h

theorem State.afterLoadConst_regOnly (s : State) (d : Reg) (v : Word) : RegOnly d s (s.afterLoadConst d v) :=
  regOnly_advance (s.setX_advance_regOnly d v)

/-- The pair that loads a constant is one write of its 16-bit value, over two instructions. -/
theorem execSeq_loadConst_append (d : Reg) (x : Int) (is : List Instr) (s : State) :
    execSeq (loadConst d x ++ is) s = execSeq is (s.afterLoadConst d (BitVec.ofInt 16 x)) := by
  rw [loadConst, List.cons_append, List.cons_append, List.nil_append, execSeq_cons_of_next _ (exec_sethi ..),
    execSeq_cons_of_next _ (exec_movbImm ..), State.x_advance, State.afterLoadConst]
  by_cases hd : d = .r0
  · subst hd; rfl
  · rw [State.x_setX_same _ _ _ hd, replaceLower_upperHalf]
    exact congrArg (fun t : State => execSeq is t.advance.advance) (s.setX_setX d _ _)

theorem execSeq_loadConst (d : Reg) (x : Int) (s : State) :
    execSeq (loadConst d x) s = .next (s.afterLoadConst d (BitVec.ofInt 16 x)) := by
  rw [← List.append_nil (loadConst d x), execSeq_loadConst_append, execSeq]

theorem State.wordAddr_afterLoadConst_t6 (s : State) (v : Word) : (s.afterLoadConst t6 v).wordAddr t6 0#4 = v :=
  State.wordAddr_zero _ t6

/-- A check of the address that `%t6` was loaded with is the check of that address before. -/
theorem checkWord_afterLoadConst_t6 (s : State) (v : Word) :
    checkWord (s.afterLoadConst t6 v) ((s.afterLoadConst t6 v).wordAddr t6 0#4) = checkWord s v := by
  rw [State.wordAddr_afterLoadConst_t6]
  rfl

section
variable {s : State} {x : Int} (r : Reg)

/-- The three instructions load through the address that the first two left in `%t6`. -/
theorem execSeq_loadAbs (h : checkWord s (BitVec.ofInt 16 x) = .ok ()) :
    execSeq (loadConst t6 x ++ [.ld r 0#4 t6]) s =
      .next ((s.afterLoadConst t6 (BitVec.ofInt 16 x)).setX r (s.word .data (BitVec.ofInt 16 x))).advance := by
  have hload := exec_ld_of_checkWord_ok (r := r) ((checkWord_afterLoadConst_t6 s _).trans h)
  rw [State.wordAddr_afterLoadConst_t6] at hload
  rw [execSeq_loadConst_append]
  exact execSeq_singleton_of_next hload

/-- The three instructions store through the address that the first two left in `%t6`. -/
theorem execSeq_storeAbs (h : checkWord s (BitVec.ofInt 16 x) = .ok ()) :
    execSeq (loadConst t6 x ++ [.st r 0#4 t6]) s =
      .next ((s.afterLoadConst t6 (BitVec.ofInt 16 x)).setWord .data (BitVec.ofInt 16 x)
        ((s.afterLoadConst t6 (BitVec.ofInt 16 x)).x r)).advance := by
  have hstore := exec_st_of_checkWord_ok (r := r) ((checkWord_afterLoadConst_t6 s _).trans h)
  rw [State.wordAddr_afterLoadConst_t6] at hstore
  rw [execSeq_loadConst_append]
  exact execSeq_singleton_of_next hstore

end

end Sys2Proof.Machine

namespace Sys2Proof.Asm

/-! ### What each form assembles to (R100 to R115, R264) -/

section
variable {c : Ctx} {e : Symexpr} {x : Int}

theorem constLoad_of_constant (o : Operand) (h : o.constant c = some x) (d : Reg) :
    constLoad c [o, .reg d] = some (loadConst d x) := by
  rw [constLoad, h, Option.map_some]

theorem assemble_mov_of_constant (o : Operand) (h : o.constant c = some x) (d : Reg) :
    assemble c .mov [o, .reg d] = some (loadConst d x) := by
  rw [assemble, constLoad_of_constant o h]
  rfl

theorem assemble_ldi_of_constant (o : Operand) (h : o.constant c = some x) (d : Reg) :
    assemble c .ldi [o, .reg d] = some (loadConst d x) :=
  constLoad_of_constant o h d

theorem loadAbs_of_eval (h : e.eval c = some x) (d : Reg) :
    loadAbs c [.memSym e, .reg d] = some (loadConst t6 x ++ [.ld d 0 t6]) := by
  rw [loadAbs, h, Option.map_some]

theorem storeAbs_of_eval (h : e.eval c = some x) (r : Reg) :
    storeAbs c [.reg r, .memSym e] = some (loadConst t6 x ++ [.st r 0 t6]) := by
  rw [storeAbs, h, Option.map_some]

theorem loadByteAbs_of_eval (h : e.eval c = some x) (d : Reg) :
    loadByteAbs c [.memSym e, .reg d] = some (loadConst t6 x ++ [.ldb d t6]) := by
  rw [loadByteAbs, h, Option.map_some]

theorem storeByteAbs_of_eval (h : e.eval c = some x) (r : Reg) :
    storeByteAbs c [.reg r, .memSym e] = some (loadConst t6 x ++ [.stb r t6]) := by
  rw [storeByteAbs, h, Option.map_some]

/-! Each absolute form has two mnemonics; the forms that either of them tries before it have another shape. -/

theorem assemble_mov_ld_memSym (h : e.eval c = some x) (d : Reg) :
    assemble c .mov [.memSym e, .reg d] = some (loadConst t6 x ++ [.ld d 0 t6]) ∧
      assemble c .ld [.memSym e, .reg d] = some (loadConst t6 x ++ [.ld d 0 t6]) := by
  rw [assemble, assemble, loadAbs_of_eval h]
  exact ⟨rfl, rfl⟩

theorem assemble_mov_st_memSym (h : e.eval c = some x) (r : Reg) :
    assemble c .mov [.reg r, .memSym e] = some (loadConst t6 x ++ [.st r 0 t6]) ∧
      assemble c .st [.reg r, .memSym e] = some (loadConst t6 x ++ [.st r 0 t6]) := by
  rw [assemble, assemble, storeAbs_of_eval h]
  exact ⟨rfl, rfl⟩

theorem assemble_movb_ldb_memSym (h : e.eval c = some x) (d : Reg) :
    assemble c .movb [.memSym e, .reg d] = some (loadConst t6 x ++ [.ldb d t6]) ∧
      assemble c .ldb [.memSym e, .reg d] = some (loadConst t6 x ++ [.ldb d t6]) := by
  rw [assemble, assemble, loadByteAbs_of_eval h]
  exact ⟨rfl, rfl⟩

theorem assemble_movb_stb_memSym (h : e.eval c = some x) (r : Reg) :
    assemble c .movb [.reg r, .memSym e] = some (loadConst t6 x ++ [.stb r t6]) ∧
      assemble c .stb [.reg r, .memSym e] = some (loadConst t6 x ++ [.stb r t6]) := by
  rw [assemble, assemble, storeByteAbs_of_eval h]
  exact ⟨rfl, rfl⟩

end

/-- An operand that is not memory has only the last form of `movb` left, the immediate one (R115). -/
theorem assemble_movb_sym8 (c : Ctx) (d : Reg) (o : Operand) (hreg : ∀ r, o ≠ .reg r) (hmem : ∀ r, o ≠ .mem r)
    (hsym : ∀ e, o ≠ .memSym e) : assemble c .movb [o, .reg d] = (o.sym8 c).map fun j => [.movbImm d j] := by
  cases o with
  | reg r => exact absurd rfl (hreg r)
  | mem r => exact absurd rfl (hmem r)
  | memSym e => exact absurd rfl (hsym e)
  | _ => rfl

end Sys2Proof.Asm

namespace Sys2Proof.Machine

open Sys2Proof.Safety Sys2Proof.Asm

/-! ### The statements: single instructions -/

/-- Settles O23: the checks pass, so the load is one register write of the word at the address. -/
theorem ldLoadsTheBigEndianWord : Obligations.LdLoadsTheBigEndianWord := by
  intro d a off s ea heven hfirst hsecond
  have hexec : exec (.ld d off a) s = .next (s.setX d (s.word .data ea)).advance :=
    exec_ld_of_checkWord_ok ((checkWord_ok s ea ()).2 ⟨heven, hfirst, hsecond⟩)
  refine ⟨_, hexec, s.wordAddr_toNat a off, ?value, rfl, s.setX_advance_regOnly d _⟩
  case value => rw [State.x_advance, State.toNat_x_setX_self, State.word, ofBytes_toNat]

/-- Settles O24: the checks pass, so the store is one word write at the address. -/
theorem stStoresTheBigEndianWord : Obligations.StStoresTheBigEndianWord := by
  intro r a off s ea heven hfirst hsecond
  have hexec : exec (.st r off a) s = .next (s.setWord .data ea (s.x r)).advance :=
    exec_st_of_checkWord_ok ((checkWord_ok s ea ()).2 ⟨heven, hfirst, hsecond⟩)
  refine ⟨_, hexec, s.wordAddr_toNat a off, ?upper, ?lower, rfl, storeOnly_advance (s.setWord_storeOnly ea _)⟩
  case upper => rw [State.byte_advance, State.byte_setWord_first, hiByte_toNat]
  case lower => rw [State.byte_advance, State.byte_setWord_second, loByte_toNat]

/-- Settles O25: the check passes, so the load is one register write that replaces the lower half. -/
theorem ldbLoadsTheLowHalf : Obligations.LdbLoadsTheLowHalf := by
  intro d a s hvalid
  refine ⟨_, exec_ldb_of_checkByte_ok ((checkByte_ok s _ ()).2 hvalid), rfl, ?value, rfl, s.setX_advance_regOnly d _⟩
  case value => rw [State.x_advance, State.toNat_x_setX_self, replaceLower_toNat, State.byteAddr]

/-- Settles O26: the check passes, so the store is one byte write at the address. -/
theorem stbStoresTheLowHalf : Obligations.StbStoresTheLowHalf := by
  intro r a s hvalid
  refine ⟨_, exec_stb_of_checkByte_ok ((checkByte_ok s _ ()).2 hvalid), rfl, ?value, rfl,
    storeOnly_advance (s.setByte_storeOnly _ _)⟩
  case value => rw [State.byte_advance, State.byte_setByte_self, loByte_toNat]

/-- Settles O28: the effect is one register write of the immediate in the upper half. -/
theorem sethiSetsHighClearsLow : Obligations.SethiSetsHighClearsLow := by
  intro d i
  refine ⟨fun c o => rfl, pack8_eq_or 0x7#4 d.field i, fun s => ⟨_, exec_sethi d i s, ?value, rfl,
    s.setX_advance_regOnly d _⟩⟩
  case value => rw [State.x_advance, State.toNat_x_setX_self, upperHalf_toNat]

/-- Settles O29: the effect is one register write that replaces the lower half. -/
theorem movbImmReplacesTheLowerHalf : Obligations.MovbImmReplacesTheLowerHalf := by
  intro d i
  refine ⟨fun c o => rfl, fun c v => ?val, fun c e => ?hiSym, fun c e => ?loSym, pack8_eq_or 0xe#4 d.field i,
    fun s => ⟨_, exec_movbImm d i s, ?value, rfl, s.setX_advance_regOnly d _⟩⟩
  case val => exact (assemble_movb_sym8 c d (.val v) nofun nofun nofun).trans (Option.map_map ..)
  case hiSym => exact (assemble_movb_sym8 c d (.hiSym e) nofun nofun nofun).trans (Option.map_map ..)
  case loSym => exact (assemble_movb_sym8 c d (.loSym e) nofun nofun nofun).trans (Option.map_map ..)
  case value => rw [State.x_advance, State.toNat_x_setX_self, replaceLower_toNat]

/-- Settles O30: a number from 0 to 3 names a system register, and its value is written to the destination. -/
theorem ldsReadsTheSystemRegister : Obligations.LdsReadsTheSystemRegister := by
  intro d n s hk hn
  obtain ⟨q, hq⟩ := sysReg_of_le_three hn
  refine ⟨_, exec_lds_of_sysReg d hk hq, ?value, rfl, s.setX_advance_regOnly d _⟩
  case value => rw [State.x_advance, State.x_setX_self, s.readSys_of_ofField hq]

/-- Settles O32: with K = 1 the bodies run, and each blank stops by name. -/
theorem supervisorBlanksStop : Obligations.SupervisorBlanksStop := by
  intro s hk
  refine ⟨exec_iret_supervisor hk, fun r n => ⟨fun hn => ?names, fun hn => ?beyond⟩⟩
  case names =>
    obtain ⟨q, hq⟩ := sysReg_of_le_three hn
    exact exec_sts_of_sysReg r hk hq
  case beyond =>
    have hnone := no_sysReg_of_three_lt hn
    exact ⟨exec_sts_of_no_sysReg r hk hnone, exec_lds_of_no_sysReg r hk hnone⟩

/-! ### The statements: aliases -/

/-- Settles O48: the two instructions are one write of the 16-bit value. -/
theorem loadConstantLeavesTheValue : Obligations.LoadConstantLeavesTheValue := by
  intro c e x d he
  refine ⟨assemble_mov_of_constant (.sym e) he d, assemble_ldi_of_constant (.sym e) he d, fun hx => ?words, fun s =>
    ⟨_, execSeq_loadConst d x s, ?value, s.afterLoadConst_pc d _, s.afterLoadConst_regOnly d _⟩⟩
  case words =>
    subst hx
    rw [assembleWords, assemble_ldi_of_constant (.sym e) he]
    rfl
  case value => rw [State.x_afterLoadConst, if_pos rfl]

/-- Settles O49: an `or` with register 0 is one write of the source. -/
theorem registerMoveCopies : Obligations.RegisterMoveCopies := by
  intro c a d
  refine ⟨rfl, rfl, rfl, fun s =>
    ⟨_, execSeq_singleton_of_next (exec_or_r0 d a s), ?value, rfl, s.setX_advance_regOnly d _⟩⟩
  case value => rw [State.x_advance, State.x_setX_self]

/-- Settles O50: the first two instructions write the address to `%t6`, from where the third loads the word there. -/
theorem absoluteLoadUsesT6 : Obligations.AbsoluteLoadUsesT6 := by
  intro c e x d he is ea
  obtain ⟨hmov, hld⟩ := assemble_mov_ld_memSym he d
  refine ⟨hmov, hld, fun s heven hfirst hsecond => ?_⟩
  have hcheck : checkWord s ea = .ok () := (checkWord_ok s ea ()).2 ⟨heven, hfirst, hsecond⟩
  refine ⟨_, execSeq_loadAbs d hcheck, ?value, fun hd => ?address, fun r hrd hr6 => ?others,
    s.afterLoadConst_pc_add_two t6 ea, rfl, fun _ _ => rfl, rfl, rfl, rfl, rfl, rfl, rfl, rfl⟩
  case value => rw [State.x_advance, State.x_setX_self]
  case address => rw [State.x_advance, State.x_setX_other _ d t6 _ hd.symm, s.x_afterLoadConst_self t6 ea (by decide)]
  case others => rw [State.x_advance, State.x_setX_other _ d r _ hrd, s.x_afterLoadConst_other t6 r ea hr6]

/-- Settles O51: the first two instructions write the address to `%t6`, to where the third stores the source, which is
the address if the source is `%t6`. -/
theorem absoluteStoreUsesT6 : Obligations.AbsoluteStoreUsesT6 := by
  intro c e x r he is ea
  obtain ⟨hmov, hst⟩ := assemble_mov_st_memSym he r
  refine ⟨hmov, hst, fun s heven hfirst hsecond => ?_⟩
  have hcheck : checkWord s ea = .ok () := (checkWord_ok s ea ()).2 ⟨heven, hfirst, hsecond⟩
  obtain ⟨_, _, hbytes, hsplit, hunified, hrest⟩ :=
    storeOnly_advance ((s.afterLoadConst t6 ea).setWord_storeOnly ea ((s.afterLoadConst t6 ea).x r))
  refine ⟨_, execSeq_storeAbs r hcheck, ?stored, ?address, fun q hq => ?others, s.afterLoadConst_pc_add_two t6 ea, rfl,
    fun p b hb hb' => hbytes p b (by simp [hb, hb']), hsplit, hunified, hrest⟩
  case stored => rw [State.word_advance, State.word_setWord, s.x_afterLoadConst, if_neg (show t6 ≠ .r0 by decide)]
  case address => rw [State.x_advance, State.x_setWord, s.x_afterLoadConst_self t6 ea (by decide)]
  case others => rw [State.x_advance, State.x_setWord, s.x_afterLoadConst_other t6 q ea hq]

/-- Settles O58: each form by its own shape, and the words of `push` and `pop` by evaluation. -/
theorem oneLineAliasesExpand : Obligations.OneLineAliasesExpand := by
  intro c e x v y a r he hv
  obtain ⟨hmovbLoad, hldb⟩ := assemble_movb_ldb_memSym he r
  obtain ⟨hmovbStore, hstb⟩ := assemble_movb_stb_memSym he r
  exact ⟨assemble_mov_of_constant (.val v) hv r, rfl, rfl, hmovbLoad, hldb, hmovbStore, hstb, rfl, rfl, rfl, rfl⟩

end Sys2Proof.Machine

/-! PROOFS. The statements of spec/41_arithmetic_compare.md: what an addition, a subtraction and a comparison write, and
the short forms that repeat the destination. -/

namespace Sys2Proof.Machine

open Sys2Proof.Safety

/-! ### A result with flags written, then the next instruction (R27) -/

theorem State.toNat_x_writeFlagged_self (s : State) (d : Reg) (r : Flagged) :
    ((s.writeFlagged d r).x d).toNat = if d = .r0 then 0 else r.value.toNat := s.toNat_x_setX_self d r.value

theorem State.writeFlagged_advance_regAndFlags (s : State) (d : Reg) (r : Flagged) :
    RegAndFlags d s (s.writeFlagged d r).advance :=
  ⟨fun q hq => s.x_setX_other d q r.value hq, psWithFlags_other s.ps r.c r.z, fun _ _ => rfl, rfl, rfl, rfl, rfl, rfl, rfl,
    rfl⟩

/-- Everything an instruction does that writes a result with its flags. -/
theorem exec_next_of_writeFlagged {i : Instr} {d : Reg} {r : Flagged} {s : State}
    (h : exec i s = .next (s.writeFlagged d r).advance) :
    ∃ t, exec i s = .next t ∧ (t.x d).toNat = (if d = .r0 then 0 else r.value.toNat) ∧ t.c = r.c ∧ t.z = r.z ∧
      t.pc = s.pc + 2#16 ∧ RegAndFlags d s t :=
  ⟨_, h, s.toNat_x_writeFlagged_self d r, s.c_writeFlagged d r, s.z_writeFlagged d r, rfl,
    s.writeFlagged_advance_regAndFlags d r⟩

theorem State.setFlags_advance_flagsOnly (s : State) (c z : Bool) : FlagsOnly s (s.setFlags c z).advance :=
  ⟨fun _ => rfl, psWithFlags_other s.ps c z, fun _ _ => rfl, rfl, rfl, rfl, rfl, rfl, rfl, rfl⟩

/-! ### Results and flags as numbers (R141, R142, R78) -/

/-- Z as the rules compute it from a result (R141, R142). -/
theorem beq_zero_eq_decide_toNat (v : Word) : (v == 0#16) = decide (v.toNat = 0) :=
  decide_eq_decide.2 BitVec.toNat_inj.symm

theorem addFlags_value_toNat (v w : Word) : (addFlags v w).value.toNat = (v.toNat + w.toNat) % 65536 :=
  BitVec.toNat_add v w

theorem addFlags_c (v w : Word) : (addFlags v w).c = decide (65536 ≤ v.toNat + w.toNat) := rfl

theorem addFlags_z (v w : Word) : (addFlags v w).z = decide ((v.toNat + w.toNat) % 65536 = 0) := by
  rw [← addFlags_value_toNat]
  exact beq_zero_eq_decide_toNat (addFlags v w).value

theorem subFlags_value_toNat (v w : Word) : (subFlags v w).value.toNat = (v.toNat + 65536 - w.toNat) % 65536 := by
  rw [subFlags, BitVec.toNat_ofInt]
  have := w.isLt
  omega

theorem subFlags_c (v w : Word) : (subFlags v w).c = decide (v.toNat < w.toNat) := rfl

/-- A difference is zero exactly when its operands are equal. -/
theorem subFlags_z_toNat (v w : Word) : (subFlags v w).z = decide (v.toNat = w.toNat) := by
  have hz : (subFlags v w).z = decide ((subFlags v w).value.toNat = 0) := beq_zero_eq_decide_toNat _
  rw [hz, subFlags_value_toNat, decide_eq_decide]
  have := v.isLt
  have := w.isLt
  omega

theorem subFlags_z (v w : Word) : (subFlags v w).z = decide (v = w) :=
  (subFlags_z_toNat v w).trans (decide_eq_decide.2 BitVec.toNat_inj)

/-- The immediate is unsigned, 0 to 15 (R78). -/
theorem immed4_toNat (n : Nibble) : (immed4 n).toNat = n.toNat := BitVec.toNat_setWidth_of_le (by decide)

/-! ### What each instruction of the family answers -/

theorem exec_add (d a b : Reg) (s : State) :
    exec (.add d a b) s = .next (s.writeFlagged d (addFlags (s.x a) (s.x b))).advance := rfl

theorem exec_addi (d : Reg) (n : Nibble) (s : State) :
    exec (.addi d n) s = .next (s.writeFlagged d (addFlags (s.x d) (immed4 n))).advance := rfl

theorem exec_sub (d a b : Reg) (s : State) :
    exec (.sub d a b) s = .next (s.writeFlagged d (subFlags (s.x a) (s.x b))).advance := rfl

theorem exec_subi (d : Reg) (n : Nibble) (s : State) :
    exec (.subi d n) s = .next (s.writeFlagged d (subFlags (s.x d) (immed4 n))).advance := rfl

theorem exec_cmp (a b : Reg) (s : State) :
    exec (.cmp a b) s =
      .next (s.setFlags (decide ((s.x a).toInt < (s.x b).toInt)) (decide (s.x a = s.x b))).advance := rfl

/-- Of a subtraction into register 0 only the flags remain: the unsigned order and equality (R150). -/
theorem exec_sub_r0 (a b : Reg) (s : State) :
    exec (.sub .r0 a b) s =
      .next (s.setFlags (decide ((s.x a).toNat < (s.x b).toNat)) (decide (s.x a = s.x b))).advance := by
  rw [exec_sub, State.writeFlagged_r0, subFlags_c, subFlags_z]

end Sys2Proof.Machine

namespace Sys2Proof.Asm

/-! ### The short form of a rotate or shift (R183 and the like) -/

theorem shiftShape_of_eval {v : Value} {x : Int} (h : v.eval = some x) (mk : Reg → Reg → Nibble → Instr) (d : Reg) :
    shiftShape mk [.val v, .reg d] = some [mk d d (field4 x)] := by
  rw [shiftShape, h, Option.map_some]

end Sys2Proof.Asm

namespace Sys2Proof.Machine

open Sys2Proof.Safety Sys2Proof.Asm

/-! ### The statements -/

/-- Settles O33: one write of the sum with its carry and zero. -/
theorem addWritesSumCarryAndZero : Obligations.AddWritesSumCarryAndZero := by
  intro d a b s
  have h := exec_next_of_writeFlagged (exec_add d a b s)
  rwa [addFlags_value_toNat, addFlags_c, addFlags_z] at h

/-- Settles O34: an addition whose second operand is the immediate as an unsigned number. -/
theorem addiAddsTheUnsignedImmediate : Obligations.AddiAddsTheUnsignedImmediate := by
  intro d n s
  have h := exec_next_of_writeFlagged (exec_addi d n s)
  rwa [addFlags_value_toNat, addFlags_c, addFlags_z, immed4_toNat] at h

/-- Settles O35: one write of the difference with its borrow and equality. -/
theorem subWritesDifferenceBorrowAndZero : Obligations.SubWritesDifferenceBorrowAndZero := by
  intro d a b s
  have h := exec_next_of_writeFlagged (exec_sub d a b s)
  rwa [subFlags_value_toNat, subFlags_c, subFlags_z] at h

/-- Settles O36: a subtraction whose second operand is the immediate as an unsigned number. -/
theorem subiSubtractsTheUnsignedImmediate : Obligations.SubiSubtractsTheUnsignedImmediate := by
  intro d n s
  have h := exec_next_of_writeFlagged (exec_subi d n s)
  rwa [subFlags_value_toNat, subFlags_c, subFlags_z_toNat, immed4_toNat] at h

/-- Settles O37: one write of the two flags. -/
theorem cmpWritesSignedLessAndEqual : Obligations.CmpWritesSignedLessAndEqual :=
  fun a b s => ⟨_, exec_cmp a b s, s.c_setFlags _ _, s.z_setFlags _ _, rfl, s.setFlags_advance_flagsOnly _ _⟩

/-- Settles O38: a subtraction into register 0 is one write of the two flags. -/
theorem cmplComparesUnsigned : Obligations.CmplComparesUnsigned :=
  fun _ a b => ⟨rfl, fun s => ⟨_, execSeq_singleton_of_next (exec_sub_r0 a b s), s.c_setFlags _ _, s.z_setFlags _ _, rfl,
    s.setFlags_advance_flagsOnly _ _⟩⟩

/-- Settles O56: the forms on registers by their shape alone, the rotates and shifts with the value of their count. -/
theorem shortFormsRepeatTheDestination : Obligations.ShortFormsRepeatTheDestination := by
  intro c a d v x hv
  have hshift (mk : Reg → Reg → Nibble → Instr) : shiftShape mk [.val v, .reg d] = some [mk d d (field4 x)] :=
    shiftShape_of_eval hv mk d
  exact ⟨rfl, rfl, rfl, rfl, rfl, rfl, hshift .rol, hshift .ror, hshift .sl, hshift .sl, hshift .sl, hshift .sr,
    hshift .sr, hshift .srl⟩

end Sys2Proof.Machine

/-! PROOFS. The statement of spec/42_logic.md: what the four logic instructions write, and that they keep the flags. -/

namespace Sys2Proof.Machine

open Sys2Proof.Safety

/-! ### A register written, seen bit by bit -/

theorem State.getLsbD_x_setX_self (s : State) (d : Reg) (v : Word) (i : Nat) :
    ((s.setX d v).x d).getLsbD i = (decide (d ≠ .r0) && v.getLsbD i) := by
  rw [State.x_setX_self]
  by_cases hd : d = .r0
  · rw [if_pos hd, decide_eq_false (not_not_intro hd), Bool.false_and, BitVec.getLsbD_zero]
  · rw [if_neg hd, decide_eq_true hd, Bool.true_and]

/-- Everything an instruction does that writes one register and no flag. -/
theorem exec_next_of_setX {i : Instr} {d : Reg} {v : Word} {s : State} (h : exec i s = .next (s.setX d v).advance) :
    ∃ t, exec i s = .next t ∧ t.pc = s.pc + 2#16 ∧ RegOnly d s t ∧
      ∀ k, (t.x d).getLsbD k = (decide (d ≠ .r0) && v.getLsbD k) :=
  ⟨_, h, rfl, s.setX_advance_regOnly d v, s.getLsbD_x_setX_self d v⟩

/-! ### What each instruction of the family answers -/

theorem exec_and (d a b : Reg) (s : State) : exec (.and d a b) s = .next (s.setX d (s.x a &&& s.x b)).advance := rfl

theorem exec_or (d a b : Reg) (s : State) : exec (.or d a b) s = .next (s.setX d (s.x a ||| s.x b)).advance := rfl

theorem exec_xor (d a b : Reg) (s : State) : exec (.xor d a b) s = .next (s.setX d (s.x a ^^^ s.x b)).advance := rfl

theorem exec_not (d a : Reg) (s : State) : exec (.not d a) s = .next (s.setX d (~~~s.x a)).advance := rfl

/-! ### The statement -/

/-- Settles O40: one register write each, whose bits are those of the word operation. A complement has only the 16 bits of
the word, so its clause needs the bound. -/
theorem logicWorksBitByBit : Obligations.LogicWorksBitByBit := by
  intro d a b s
  refine ⟨?and, ?or, ?xor, ?not⟩
  case and => simpa only [BitVec.getLsbD_and] using exec_next_of_setX (exec_and d a b s)
  case or => simpa only [BitVec.getLsbD_or] using exec_next_of_setX (exec_or d a b s)
  case xor => simpa only [BitVec.getLsbD_xor] using exec_next_of_setX (exec_xor d a b s)
  case not =>
    obtain ⟨t, hexec, hpc, honly, hbits⟩ := exec_next_of_setX (exec_not d a s)
    refine ⟨t, hexec, hpc, honly, fun i hi => ?_⟩
    rw [hbits, BitVec.getLsbD_not, decide_eq_true hi, Bool.true_and]

end Sys2Proof.Machine

/-! PROOFS. The statements of spec/43_rotate_shift.md: which bit of the source each bit of the result is, and when the result
is zero. -/

namespace Sys2Proof.Machine

open Sys2Proof.Safety

/-! ### The five results as operations on words (R182, R184, R186, R188, R190) -/

theorem shiftCount_le (n : Nibble) : n.toNat ≤ 15 := Nat.le_of_lt_succ n.isLt

theorem shiftCount_mod (n : Nibble) : n.toNat % 16 = n.toNat := Nat.mod_eq_of_lt n.isLt

/-- Moving down makes no number longer, so its narrowing loses nothing. -/
theorem ofNat_toNat_shiftRight (v : Word) (k : Nat) : BitVec.ofNat 16 (v.toNat >>> k) = v >>> k :=
  BitVec.eq_of_toNat_eq (Nat.mod_eq_of_lt (v >>> k).isLt)

theorem shiftResult_sl (v : Word) (n : Nibble) : shiftResult .sl v n = v <<< n.toNat := rfl

theorem shiftResult_srl (v : Word) (n : Nibble) : shiftResult .srl v n = v >>> n.toNat :=
  ofNat_toNat_shiftRight v n.toNat

theorem shiftResult_sr (v : Word) (n : Nibble) : shiftResult .sr v n = v.sshiftRight n.toNat := by
  rw [shiftResult, BitVec.sshiftRight, Int.shiftRight_eq_div_pow]

theorem shiftResult_rol (v : Word) (n : Nibble) : shiftResult .rol v n = v.rotateLeft n.toNat := by
  rw [shiftResult, BitVec.ofNat_or, ofNat_toNat_shiftRight, BitVec.rotateLeft_def, shiftCount_mod]
  rfl

theorem shiftResult_ror (v : Word) (n : Nibble) : shiftResult .ror v n = v.rotateRight n.toNat := by
  rw [shiftResult, BitVec.ofNat_or, ofNat_toNat_shiftRight, BitVec.rotateRight_def, shiftCount_mod]
  rfl

/-! ### Where each bit of a result comes from -/

theorem getLsbD_shiftResult_rol (v : Word) (n : Nibble) (i : Nat) (hi : i < 16) :
    (shiftResult .rol v n).getLsbD i = v.getLsbD ((i + 16 - n.toNat) % 16) := by
  have hn := shiftCount_le n
  rw [shiftResult_rol, BitVec.getLsbD_rotateLeft, shiftCount_mod]
  by_cases hin : i < n.toNat
  · have hsrc : (i + 16 - n.toNat) % 16 = 16 - n.toNat + i := by omega
    simp [hin, hsrc]
  · have hsrc : (i + 16 - n.toNat) % 16 = i - n.toNat := by omega
    simp [hin, hi, hsrc]

theorem getLsbD_shiftResult_ror (v : Word) (n : Nibble) (i : Nat) (hi : i < 16) :
    (shiftResult .ror v n).getLsbD i = v.getLsbD ((i + n.toNat) % 16) := by
  have hn := shiftCount_le n
  rw [shiftResult_ror, BitVec.getLsbD_rotateRight, shiftCount_mod]
  by_cases hin : i < 16 - n.toNat
  · have hsrc : (i + n.toNat) % 16 = n.toNat + i := by omega
    simp [hin, hsrc]
  · have hsrc : (i + n.toNat) % 16 = i - (16 - n.toNat) := by omega
    simp [hin, hi, hsrc]

theorem getLsbD_shiftResult_sl (v : Word) (n : Nibble) (i : Nat) (hi : i < 16) :
    (shiftResult .sl v n).getLsbD i = (decide (n.toNat ≤ i) && v.getLsbD (i - n.toNat)) := by
  rw [shiftResult_sl, BitVec.getLsbD_shiftLeft, decide_eq_true hi, Bool.true_and, ← decide_not,
    decide_eq_decide.2 Nat.not_lt]

theorem getLsbD_shiftResult_sr (v : Word) (n : Nibble) (i : Nat) (hi : i < 16) :
    (shiftResult .sr v n).getLsbD i = v.getLsbD (if i + n.toNat ≤ 15 then i + n.toNat else 15) := by
  rw [shiftResult_sr, BitVec.getLsbD_sshiftRight, decide_eq_false (Nat.not_le.2 hi), Bool.not_false, Bool.true_and,
    Nat.add_comm, BitVec.msb_eq_getLsbD_last, apply_ite v.getLsbD]
  exact if_congr Nat.lt_succ_iff rfl rfl

theorem getLsbD_shiftResult_srl (v : Word) (n : Nibble) (i : Nat) :
    (shiftResult .srl v n).getLsbD i = v.getLsbD (i + n.toNat) := by
  rw [shiftResult_srl, BitVec.getLsbD_ushiftRight, Nat.add_comm]

/-! ### When a result is zero (R180) -/

/-- A word whose bits are bits of another, none left out, is zero exactly when the other is. -/
theorem eq_zero_iff_of_bits_moved {r v : Word} {src : Nat → Nat}
    (hbits : ∀ i, i < 16 → r.getLsbD i = v.getLsbD (src i))
    (hall : ∀ j, j < 16 → ∃ i, i < 16 ∧ src i = j) : r = 0#16 ↔ v = 0#16 := by
  constructor <;> rintro rfl
  · refine BitVec.eq_of_getLsbD_eq fun j hj => ?_
    obtain ⟨i, hi, rfl⟩ := hall j hj
    rw [← hbits i hi, BitVec.getLsbD_zero, BitVec.getLsbD_zero]
  · refine BitVec.eq_of_getLsbD_eq fun i hi => ?_
    rw [hbits i hi, BitVec.getLsbD_zero, BitVec.getLsbD_zero]

theorem shiftResult_rol_eq_zero_iff (v : Word) (n : Nibble) : shiftResult .rol v n = 0#16 ↔ v = 0#16 := by
  have hn := shiftCount_le n
  exact eq_zero_iff_of_bits_moved (getLsbD_shiftResult_rol v n) fun j hj => ⟨(j + n.toNat) % 16, by omega, by omega⟩

theorem shiftResult_ror_eq_zero_iff (v : Word) (n : Nibble) : shiftResult .ror v n = 0#16 ↔ v = 0#16 := by
  have hn := shiftCount_le n
  exact eq_zero_iff_of_bits_moved (getLsbD_shiftResult_ror v n) fun j hj => ⟨(j + 16 - n.toNat) % 16, by omega, by omega⟩

theorem shiftResult_sl_eq_zero_iff (v : Word) (n : Nibble) :
    shiftResult .sl v n = 0#16 ↔ v.toNat * 2 ^ n.toNat % 65536 = 0 := by
  rw [shiftResult_sl, ← BitVec.toNat_inj, BitVec.toNat_shiftLeft, Nat.shiftLeft_eq]
  rfl

theorem shiftResult_srl_eq_zero_iff (v : Word) (n : Nibble) :
    shiftResult .srl v n = 0#16 ↔ v.toNat / 2 ^ n.toNat = 0 := by
  rw [shiftResult_srl, ← BitVec.toNat_inj, BitVec.toNat_ushiftRight, Nat.shiftRight_eq_div_pow]
  rfl

/-- Without a sign the two right shifts agree. With one neither side is zero: the sign stays, and bit 15 is beyond the reach
of a count up to 15. -/
theorem shiftResult_sr_eq_zero_iff (v : Word) (n : Nibble) :
    shiftResult .sr v n = 0#16 ↔ v.toNat / 2 ^ n.toNat = 0 := by
  cases hsign : v.msb with
  | false => rw [shiftResult_sr, BitVec.sshiftRight_eq_of_msb_false hsign, ← shiftResult_srl, shiftResult_srl_eq_zero_iff]
  | true =>
    have hresult : shiftResult .sr v n ≠ 0#16 := by
      refine ne_of_apply_ne BitVec.msb ?_
      simp [shiftResult_sr, hsign]
    have hpow : 2 ^ n.toNat ≤ v.toNat :=
      (Nat.pow_le_pow_right two_pos (shiftCount_le n)).trans (BitVec.le_toNat_of_msb_true hsign)
    exact iff_of_false hresult (Nat.div_pos hpow (Nat.two_pow_pos _)).ne'

/-! ### What each instruction of the family answers -/

theorem shiftInstr_next (op : Config.ShiftOp) (d a : Reg) (n : Nibble) (s : State) :
    shiftInstr op d a n s = .next (s.writeFlagged d (shiftFlags op (s.x a) n s.c)).advance := rfl

theorem exec_rol (d a : Reg) (n : Nibble) (s : State) : exec (.rol d a n) s = shiftInstr .rol d a n s := rfl

theorem exec_ror (d a : Reg) (n : Nibble) (s : State) : exec (.ror d a n) s = shiftInstr .ror d a n s := rfl

theorem exec_sl (d a : Reg) (n : Nibble) (s : State) : exec (.sl d a n) s = shiftInstr .sl d a n s := rfl

theorem exec_sr (d a : Reg) (n : Nibble) (s : State) : exec (.sr d a n) s = shiftInstr .sr d a n s := rfl

theorem exec_srl (d a : Reg) (n : Nibble) (s : State) : exec (.srl d a n) s = shiftInstr .srl d a n s := rfl

/-- Everything a rotate or shift does, given the bits of its result and when that is zero. -/
theorem exec_next_of_shiftInstr {i : Instr} {op : Config.ShiftOp} {d a : Reg} {n : Nibble} {s : State} {bit : Nat → Bool}
    {zero : Prop} [Decidable zero] (h : exec i s = shiftInstr op d a n s)
    (hbits : ∀ k, k < 16 → (shiftResult op (s.x a) n).getLsbD k = bit k)
    (hzero : shiftResult op (s.x a) n = 0#16 ↔ zero) :
    ∃ t, exec i s = .next t ∧ (∀ k, k < 16 → (t.x d).getLsbD k = (decide (d ≠ .r0) && bit k)) ∧ t.z = decide zero ∧
      t.c = Config.shiftC op (s.x a) n s.c ∧ t.pc = s.pc + 2#16 ∧ RegAndFlags d s t := by
  refine ⟨_, h.trans (shiftInstr_next op d a n s), fun k hk => ?bits, ?zero, s.c_writeFlagged d _, rfl,
    s.writeFlagged_advance_regAndFlags d _⟩
  case bits => rw [← hbits k hk]; exact s.getLsbD_x_setX_self d _ k
  case zero => exact (s.z_writeFlagged d _).trans (decide_eq_decide.2 hzero)

/-! ### The statements -/

/-- Settles O41: each bit moves round the word, so the result is zero exactly when the source is. -/
theorem rotatesMoveBitsRound : Obligations.RotatesMoveBitsRound :=
  fun d a n s =>
    ⟨exec_next_of_shiftInstr (exec_rol d a n s) (getLsbD_shiftResult_rol _ n) (shiftResult_rol_eq_zero_iff _ n),
      exec_next_of_shiftInstr (exec_ror d a n s) (getLsbD_shiftResult_ror _ n) (shiftResult_ror_eq_zero_iff _ n)⟩

/-- Settles O42: each clause from where the bits of its result come from and when that result is zero. -/
theorem shiftsMoveBits : Obligations.ShiftsMoveBits := by
  intro d a n s
  refine ⟨?sl, ?sr, ?srl⟩
  case sl =>
    simpa only [Bool.and_assoc] using
      exec_next_of_shiftInstr (exec_sl d a n s) (getLsbD_shiftResult_sl _ n) (shiftResult_sl_eq_zero_iff _ n)
  case sr => exact exec_next_of_shiftInstr (exec_sr d a n s) (getLsbD_shiftResult_sr _ n) (shiftResult_sr_eq_zero_iff _ n)
  case srl =>
    exact exec_next_of_shiftInstr (exec_srl d a n s) (fun k _ => getLsbD_shiftResult_srl _ n k)
      (shiftResult_srl_eq_zero_iff _ n)

end Sys2Proof.Machine

/-! PROOFS. The statements of spec/44_branch_jump.md: when a short branch is taken and where it goes, what `jal` does, and the
forms of `jal`, `j`, `call` and `ret`. -/

namespace Sys2Proof.Machine

open Sys2Proof.Safety

/-! ### The pc moved, alone or after a register write -/

theorem State.jump_pcOnly (s : State) (v : Word) : PcOnly s (s.jump v) :=
  ⟨fun _ => rfl, rfl, fun _ _ => rfl, rfl, rfl, rfl, rfl, rfl, rfl, rfl⟩

theorem State.setX_jump_regOnly (s : State) (d : Reg) (v w : Word) : RegOnly d s ((s.setX d v).jump w) :=
  s.setX_advance_regOnly d v

theorem State.link_toNat (s : State) : s.link.toNat = (s.pc.toNat + 2) % 65536 := BitVec.toNat_add ..

theorem State.jalTarget_toNat (s : State) (a o : Reg) :
    (s.jalTarget a o).toNat = ((s.x a).toNat + (s.x o).toNat) % 65536 := BitVec.toNat_add ..

/-- With register 0 as the offset the other register is the target (R210, R220). -/
theorem State.jalTarget_r0 (s : State) (a : Reg) : s.jalTarget a .r0 = s.x a := BitVec.add_zero _

/-! ### What each instruction of the family answers -/

theorem exec_bl (d : Byte) (s : State) : exec (.bl d) s = branchIf s.c d s := rfl

theorem exec_be (d : Byte) (s : State) : exec (.be d) s = branchIf s.z d s := rfl

theorem exec_bne (d : Byte) (s : State) : exec (.bne d) s = branchIf (!s.z) d s := rfl

theorem exec_bge (d : Byte) (s : State) : exec (.bge d) s = branchIf (!s.c) d s := rfl

theorem exec_bg (d : Byte) (s : State) : exec (.bg d) s = branchIf (!s.z && !s.c) d s := rfl

theorem exec_b (d : Byte) (s : State) : exec (.b d) s = branchIf true d s := rfl

theorem exec_jal (r o a : Reg) (s : State) :
    exec (.jal r o a) s = .next ((s.setX r s.link).jump (s.jalTarget a o)) := rfl

/-! ### Short branches (R200) -/

/-- A branch whose condition on the flags says `p`. -/
theorem branchIf_of_iff {cond : Bool} {p : Prop} [Decidable p] (h : cond = true ↔ p) (d : Byte) (s : State) :
    branchIf cond d s = .next (if p then s.jump (s.branchTarget d) else s.advance) := by
  rw [branchIf, if_congr h rfl rfl]

/-- Everything a short branch does: the pc goes to the target or to the next instruction. -/
theorem exec_next_of_branchIf {i : Instr} {taken : Bool} {d : Byte} {s : State} (h : exec i s = branchIf taken d s) :
    ∃ t, exec i s = .next t ∧ (t.pc.toNat : Int) = (s.pc.toNat + 2 + if taken then 2 * d.toInt else 0) % 65536 ∧
      PcOnly s t := by
  cases taken with
  | false =>
    have hpc : ((s.pc + 2#16).toNat : Int) = (s.pc.toNat + 2 + 0) % 65536 := by
      rw [BitVec.toNat_add, BitVec.toNat_ofNat]
      omega
    exact ⟨s.advance, h, hpc, s.jump_pcOnly _⟩
  | true => exact ⟨s.jump (s.branchTarget d), h, s.branchTarget_toNat d, s.jump_pcOnly _⟩

/-- The flags a comparison leaves, as the branches read them (R149). -/
theorem flags_of_exec_cmp {a b : Reg} {s t : State} (h : exec (.cmp a b) s = .next t) :
    (t.c = true ↔ (s.x a).toInt < (s.x b).toInt) ∧ (t.z = true ↔ s.x a = s.x b) := by
  rw [exec_cmp] at h
  cases h
  rw [State.c_advance, State.z_advance, State.c_setFlags, State.z_setFlags, decide_eq_true_iff, decide_eq_true_iff]
  exact ⟨Iff.rfl, Iff.rfl⟩

end Sys2Proof.Machine

namespace Sys2Proof.Asm

/-! ### The targets of `jal`, `j` and `call` that name a symbol (R209, R210) -/

section
variable {c : Ctx} {e : Symexpr} {x : Int}

theorem jumpTo_sym_of_eval (h : e.eval c = some x) (r : Reg) :
    jumpTo c r (.sym e) = some (loadConst t6 x ++ [.jal r .r0 t6]) := by
  rw [jumpTo, h, Option.map_some]

theorem jumpTo_symSum_of_eval (h : e.eval c = some x) (r o : Reg) :
    jumpTo c r (.symSum e o) = some (loadConst t6 x ++ [.jal r o t6]) := by
  rw [jumpTo, h, Option.map_some]

theorem assemble_call_sym (h : e.eval c = some x) :
    assemble c .call [.sym e] = some (loadConst t6 x ++ [.jal ra .r0 t6]) :=
  jumpTo_sym_of_eval h ra

end

end Sys2Proof.Asm

namespace Sys2Proof.Machine

open Sys2Proof.Safety Sys2Proof.Asm

/-- The three instructions jump to the address that the first two left in `%t6`, and link past all three (R210, R217). -/
theorem execSeq_jumpSym (r : Reg) (x : Int) (s : State) :
    execSeq (loadConst t6 x ++ [.jal r .r0 t6]) s =
      .next (((s.afterLoadConst t6 (BitVec.ofInt 16 x)).setX r (s.pc + 6#16)).jump (BitVec.ofInt 16 x)) := by
  have hjal := exec_jal r .r0 t6 (s.afterLoadConst t6 (BitVec.ofInt 16 x))
  rw [State.jalTarget_r0, s.x_afterLoadConst_self t6 _ (by decide), State.link, State.afterLoadConst_pc_add_two] at hjal
  rw [execSeq_loadConst_append]
  exact execSeq_singleton_of_next hjal

/-! ### The statements -/

/-- Settles O39: the flags of the comparison decide each branch. That neither is set means greater, because words with the
same signed value are equal. -/
theorem branchAfterCmpFollowsSignedOrder : Obligations.BranchAfterCmpFollowsSignedOrder := by
  intro a b s t d h
  obtain ⟨hless, hequal⟩ := flags_of_exec_cmp h
  have hge : (!t.c) = true ↔ (s.x b).toInt ≤ (s.x a).toInt := by
    rw [Bool.not_eq_true', ← Bool.not_eq_true, hless, Int.not_lt]
  have hne : (!t.z) = true ↔ s.x a ≠ s.x b := by
    rw [Bool.not_eq_true', ← Bool.not_eq_true, hequal]
  have hgreater : (!t.z && !t.c) = true ↔ (s.x b).toInt < (s.x a).toInt := by
    rw [Bool.and_eq_true, hne, hge, ← BitVec.toInt_inj.ne]
    omega
  exact ⟨(exec_bl d t).trans (branchIf_of_iff hless d t), (exec_bge d t).trans (branchIf_of_iff hge d t),
    (exec_be d t).trans (branchIf_of_iff hequal d t), (exec_bne d t).trans (branchIf_of_iff hne d t),
    (exec_bg d t).trans (branchIf_of_iff hgreater d t)⟩

/-- Settles O44: the spellings by the shared shape of a branch, each word by its fields, each effect by its condition. -/
theorem shortBranchesFollowTheirFlags : Obligations.ShortBranchesFollowTheirFlags := by
  intro d
  refine ⟨fun c o => ⟨rfl, rfl, rfl, rfl, rfl, rfl, rfl, rfl, rfl, rfl⟩, pack8_eq_or 0xf#4 0x6#4 d,
    pack8_eq_or 0xf#4 0x7#4 d, pack8_eq_or 0xf#4 0x8#4 d, pack8_eq_or 0xf#4 0x9#4 d, pack8_eq_or 0xf#4 0xa#4 d,
    pack8_eq_or 0xf#4 0xb#4 d, fun s => ?effects⟩
  case effects =>
    exact ⟨exec_next_of_branchIf (exec_bl d s), exec_next_of_branchIf (exec_be d s), exec_next_of_branchIf (exec_bne d s),
      exec_next_of_branchIf (exec_bge d s), exec_next_of_branchIf (exec_bg d s), exec_next_of_branchIf (exec_b d s)⟩

/-- Settles O45: one write of the link and one of the pc, both from the registers as they were. -/
theorem jalJumpsToTheSumAndLinks : Obligations.JalJumpsToTheSumAndLinks := by
  intro r o a s
  refine ⟨_, exec_jal r o a s, s.jalTarget_toNat a o, ?link, s.setX_jump_regOnly r _ _⟩
  case link => rw [State.x_jump, State.toNat_x_setX_self, State.link_toNat]

/-- Settles O54: the first two instructions write the symbol's value to `%t6`, and the third jumps there. -/
theorem callSymbolReturnsPastTheCall : Obligations.CallSymbolReturnsPastTheCall := by
  intro c e x he
  refine ⟨assemble_call_sym he, fun hx => ?words, fun s => ⟨_, execSeq_jumpSym ra x s, rfl, ?link, ?address,
    fun r hra hr6 => ?others, rfl, fun _ _ => rfl, rfl, rfl, rfl, rfl, rfl, rfl, rfl⟩⟩
  case words =>
    subst hx
    rw [assembleWords, assemble_call_sym he]
    rfl
  case link => rw [State.x_jump, State.x_setX_same _ ra _ (by decide)]
  case address =>
    rw [State.x_jump, State.x_setX_other _ ra t6 _ (by decide), s.x_afterLoadConst_self t6 _ (by decide)]
  case others => rw [State.x_jump, State.x_setX_other _ ra r _ hra, s.x_afterLoadConst_other t6 r _ hr6]

/-- Settles O55: a `jal` whose link goes to register 0 and whose offset is register 0. -/
theorem retJumpsToTheReturnAddress : Obligations.RetJumpsToTheReturnAddress :=
  fun _ => ⟨rfl, rfl, fun s =>
    ⟨_, execSeq_singleton_of_next (execJal_r0 .r0 ra s), s.jalTarget_r0 ra, s.jump_pcOnly _⟩⟩

/-- Settles O57: the mnemonic chooses the link register and the operand one of the four targets. -/
theorem jumpFormsExpandToJal : Obligations.JumpFormsExpandToJal := by
  intro c e x a o r he
  exact ⟨jumpTo_symSum_of_eval he r o, jumpTo_sym_of_eval he r, rfl, jumpTo_symSum_of_eval he .r0 o,
    jumpTo_sym_of_eval he .r0, rfl, rfl, jumpTo_symSum_of_eval he ra o, rfl, rfl⟩

end Sys2Proof.Machine

/-! PROOFS. The statements of spec/45_system.md: what an interrupt call does and where it stops, and that `nop` does nothing
and has one name. -/

namespace Sys2Proof.Machine

open Sys2Proof.Safety

/-! ### What the environment leaves (R240) -/

@[simp] theorem State.x_envResume (s : State) (f : Regs) (c z : Bool) (data : List Host.Cell) (r : Reg) :
    (s.envResume f c z data).x r = f.get r := rfl

@[simp] theorem State.c_envResume (s : State) (f : Regs) (c z : Bool) (data : List Host.Cell) :
    (s.envResume f c z data).c = c := by
  rw [State.c, State.envResume_ps, psUserMode_other _ 7 (by decide), psWithFlags_c]

@[simp] theorem State.z_envResume (s : State) (f : Regs) (c z : Bool) (data : List Host.Cell) :
    (s.envResume f c z data).z = z := by
  rw [State.z, State.envResume_ps, psUserMode_other _ 6 (by decide), psWithFlags_z]

@[simp] theorem State.byte_data_envResume (s : State) (f : Regs) (c z : Bool) (data : List Host.Cell) (a : Word) :
    (s.envResume f c z data).byte .data a = (Memory.ofCells data).read a.toNat := by
  rw [State.byte, State.envResume_mem, Spaces.view_put_same]

/-! ### An interrupt call by what the environment answers (R240, R300) -/

section
variable {s : State} {n : BitVec 7}

theorem State.interruptCall_of_resume {f : Regs} {c z : Bool} {data : List Host.Cell}
    (h : Config.envCall s.envTick n s.envView = .resume f c z data) :
    s.interruptCall n = (s.envResume f c z data).advance := by
  rw [State.interruptCall, h]

theorem State.interruptCall_of_halt {info : Nat} (h : Config.envCall s.envTick n s.envView = .halt info) :
    s.interruptCall n = { s with run := .halted info, envTick := s.envTick + 1 } := by
  rw [State.interruptCall, h]

end

theorem State.interruptCall_envTick (s : State) (n : BitVec 7) : (s.interruptCall n).envTick = s.envTick + 1 := by
  rcases s.interruptCall_cases n with ⟨f, c, z, data, h⟩ | ⟨info, h⟩
  · rw [h, State.advance_envTick, State.envResume_envTick]
  · rw [h]

/-- A fetch sees what the environment did to data space exactly when the two spaces are one (R41, R42). -/
theorem State.byte_instr_interruptCall_eq_ite (s : State) (n : BitVec 7) (a : Word) :
    (s.interruptCall n).byte .instr a =
      if s.mem.isUnified then (s.interruptCall n).byte .data a else s.byte .instr a := by
  cases hu : s.mem.isUnified with
  | true => exact State.byte_of_unified ((s.interruptCall_configKept n).unified.trans hu) _ _ a
  | false => exact s.byte_instr_interruptCall n hu a

/-! ### What each instruction of the family answers -/

theorem exec_int_of_implemented {n : BitVec 7} {s : State} (h : n ∉ s.unimplemented) :
    exec (.int n) s = .next (s.interruptCall n) :=
  if_pos ((s.implements_iff n).2 h)

theorem exec_int_of_unimplemented {n : BitVec 7} {s : State} (h : n ∈ s.unimplemented) :
    exec (.int n) s = .fault (.unspecified (unimplementedInterrupt n)) :=
  if_neg fun hi => (s.implements_iff n).1 hi h

theorem exec_nop (s : State) : exec .nop s = .next s.advance := rfl

end Sys2Proof.Machine

namespace Sys2Proof.Asm

/-! ### What gives no `nop` (R242) -/

/-- What a form gives, if anything, has no `nop` in it. -/
def NoNop (r : Option (List Instr)) : Prop := ∀ is, r = some is → .nop ∉ is

@[simp] theorem noNop_none : NoNop none := fun _ h => nomatch h

@[simp] theorem noNop_some (is : List Instr) : NoNop (some is) ↔ .nop ∉ is :=
  ⟨fun h => h is rfl, fun h _ his => Option.some.inj his ▸ h⟩

@[simp] theorem noNop_map {α : Type} (f : α → List Instr) (v : Option α) :
    NoNop (v.map f) ↔ ∀ x, v = some x → .nop ∉ f x := by
  cases v <;> simp

theorem NoNop.orElse {r q : Option (List Instr)} (hr : NoNop r) (hq : NoNop q) : NoNop (r <|> q) := by
  cases r with
  | none => exact hq
  | some is => exact hr

@[simp] theorem nop_notMem_loadConst (d : Reg) (x : Int) : .nop ∉ loadConst d x := by
  simp [loadConst]

/-! ### The forms that give no `nop`

Each form looks at the operands once, and what it gives lists its instructions. -/

section
variable (c : Ctx) (ops : List Operand)

theorem constLoad_noNop : NoNop (constLoad c ops) := by
  unfold constLoad; split <;> simp

theorem regMove_noNop : NoNop (regMove ops) := by
  unfold regMove; split <;> simp

theorem loadAbs_noNop : NoNop (loadAbs c ops) := by
  unfold loadAbs; split <;> simp

theorem loadWord_noNop : NoNop (loadWord ops) := by
  unfold loadWord; split <;> simp

theorem loadPlain_noNop : NoNop (loadPlain ops) := by
  unfold loadPlain; split <;> simp

theorem storeAbs_noNop : NoNop (storeAbs c ops) := by
  unfold storeAbs; split <;> simp

theorem storeWord_noNop : NoNop (storeWord ops) := by
  unfold storeWord; split <;> simp

theorem storePlain_noNop : NoNop (storePlain ops) := by
  unfold storePlain; split <;> simp

theorem readSys_noNop : NoNop (readSys ops) := by
  unfold readSys; split <;> simp

theorem writeSys_noNop : NoNop (writeSys ops) := by
  unfold writeSys; split <;> simp

theorem sethiShape_noNop : NoNop (sethiShape c ops) := by
  unfold sethiShape; split <;> simp

theorem loadByteAbs_noNop : NoNop (loadByteAbs c ops) := by
  unfold loadByteAbs; split <;> simp

theorem loadByte_noNop : NoNop (loadByte ops) := by
  unfold loadByte; split <;> simp

theorem storeByteAbs_noNop : NoNop (storeByteAbs c ops) := by
  unfold storeByteAbs; split <;> simp

theorem storeByte_noNop : NoNop (storeByte ops) := by
  unfold storeByte; split <;> simp

theorem byteImm_noNop : NoNop (byteImm c ops) := by
  unfold byteImm; split <;> simp

theorem threeReg_noNop {mk : Reg → Reg → Reg → Instr} (h : ∀ d a b, .nop ≠ mk d a b) : NoNop (threeReg mk ops) := by
  unfold threeReg; split <;> simp [h]

theorem immReg_noNop {mk : Reg → Nibble → Instr} (h : ∀ d a, .nop ≠ mk d a) : NoNop (immReg mk ops) := by
  unfold immReg; split <;> simp [h]

theorem shiftShape_noNop {mk : Reg → Reg → Nibble → Instr} (h : ∀ d a b, .nop ≠ mk d a b) : NoNop (shiftShape mk ops) := by
  unfold shiftShape; split <;> simp [h]

theorem cmpShape_noNop : NoNop (cmpShape ops) := by
  unfold cmpShape; split <;> simp

theorem cmplShape_noNop : NoNop (cmplShape ops) := by
  unfold cmplShape; split <;> simp

theorem notShape_noNop : NoNop (notShape ops) := by
  unfold notShape; split <;> simp

theorem branchShape_noNop {mk : Byte → Instr} (h : ∀ d, .nop ≠ mk d) : NoNop (branchShape c mk ops) := by
  unfold branchShape; split <;> simp [h]

theorem jumpTo_noNop (r : Reg) (o : Operand) : NoNop (jumpTo c r o) := by
  unfold jumpTo; split <;> simp

theorem jalShape_noNop : NoNop (jalShape c ops) := by
  unfold jalShape; split <;> simp [jumpTo_noNop]

theorem jumpShape_noNop (r : Reg) : NoNop (jumpShape c r ops) := by
  unfold jumpShape; split <;> simp [jumpTo_noNop]

theorem intShape_noNop : NoNop (intShape ops) := by
  unfold intShape; split <;> simp

theorem noOperands_noNop {i : Instr} (h : .nop ≠ i) : NoNop (noOperands i ops) := by
  unfold noOperands; split <;> simp [h]

theorem pushShape_noNop : NoNop (pushShape ops) := by
  unfold pushShape; split <;> simp

theorem popShape_noNop : NoNop (popShape ops) := by
  unfold popShape; split <;> simp

end

/-! ### Mnemonics and `nop` (R242, R264) -/

theorem assemble_nop_of_operands (c : Ctx) (o : Operand) (os : List Operand) : assemble c .nop (o :: os) = none := rfl

/-- Every other mnemonic tries forms that give no `nop`. -/
theorem assemble_noNop (c : Ctx) {m : Mnemonic} (ops : List Operand) (hm : m ≠ .nop) : NoNop (assemble c m ops) := by
  cases m with
  | nop => exact absurd rfl hm
  | mov =>
    exact (constLoad_noNop c ops).orElse <| (regMove_noNop ops).orElse <| (loadAbs_noNop c ops).orElse <|
      (loadWord_noNop ops).orElse <| (loadPlain_noNop ops).orElse <| (storeAbs_noNop c ops).orElse <|
      (storeWord_noNop ops).orElse <| (storePlain_noNop ops).orElse <| (readSys_noNop ops).orElse <| writeSys_noNop ops
  | ldi => exact constLoad_noNop c ops
  | ld => exact (loadAbs_noNop c ops).orElse <| (loadWord_noNop ops).orElse <| readSys_noNop ops
  | st =>
    exact (regMove_noNop ops).orElse <| (storeAbs_noNop c ops).orElse <| (storeWord_noNop ops).orElse <|
      writeSys_noNop ops
  | lds => exact readSys_noNop ops
  | sts => exact writeSys_noNop ops
  | sethi => exact sethiShape_noNop c ops
  | movb =>
    exact (loadByteAbs_noNop c ops).orElse <| (loadByte_noNop ops).orElse <| (storeByteAbs_noNop c ops).orElse <|
      (storeByte_noNop ops).orElse <| byteImm_noNop c ops
  | ldb => exact (loadByteAbs_noNop c ops).orElse <| loadByte_noNop ops
  | stb => exact (storeByteAbs_noNop c ops).orElse <| storeByte_noNop ops
  | ldbi => exact byteImm_noNop c ops
  | add | sub => exact .orElse (threeReg_noNop ops (by simp)) (immReg_noNop ops (by simp))
  | addi | subi => exact immReg_noNop ops (by simp)
  | and | or | xor => exact threeReg_noNop ops (by simp)
  | rol | ror | sl | sla | sll | sr | sra | srl => exact shiftShape_noNop ops (by simp)
  | cmp => exact cmpShape_noNop ops
  | cmpl => exact cmplShape_noNop ops
  | not => exact notShape_noNop ops
  | bl | bc | be | bz | bne | bnz | bge | bnc | bg | b => exact branchShape_noNop c ops (by simp)
  | jal => exact jalShape_noNop c ops
  | j | call => exact jumpShape_noNop c ops _
  | ret | iret => exact noOperands_noNop ops (by simp)
  | int => exact intShape_noNop ops
  | push => exact pushShape_noNop ops
  | pop => exact popShape_noNop ops

/-- A line that gives a `nop` is the mnemonic `nop` alone. -/
theorem eq_nop_of_nop_mem {c : Ctx} {m : Mnemonic} {ops : List Operand} {is : List Instr}
    (h : assemble c m ops = some is) (hnop : .nop ∈ is) : m = .nop ∧ ops = [] := by
  have hm : m = .nop := by
    by_contra hne
    exact assemble_noNop c ops hne is h hnop
  subst hm
  cases ops with
  | nil => exact ⟨rfl, rfl⟩
  | cons o os => cases (assemble_nop_of_operands c o os).symm.trans h

end Sys2Proof.Asm

namespace Sys2Proof.Machine

open Sys2Proof.Safety Sys2Proof.Asm

/-! ### The statements -/

/-- Settles O46: the number decides between the call and the stop, and the environment's answer what the call leaves. -/
theorem intIsOneEnvironmentCall : Obligations.IntIsOneEnvironmentCall := by
  intro n s
  obtain ⟨hpt, htt, hunified, habsent, hunimplemented⟩ := s.interruptCall_configKept n
  refine ⟨exec_int_of_unimplemented, fun hn => ⟨_, exec_int_of_implemented hn, ?answer, State.x_r0 _, hpt, htt, hunified,
    habsent, hunimplemented, s.interruptCall_envTick n⟩⟩
  case answer =>
    have hps := s.interruptCall_unreachedPsKept n
    have hinstr := s.byte_instr_interruptCall_eq_ite n
    cases hcall : Config.envCall s.envTick n s.envView with
    | resume f c z data =>
      rw [State.interruptCall_of_resume hcall] at hps hinstr ⊢
      exact ⟨fun r _ => s.x_envResume f c z data r, s.c_envResume f c z data,
        s.z_envResume f c z data, s.k_envResume f c z data, hps, s.byte_data_envResume f c z data, hinstr, rfl, rfl⟩
    | halt info =>
      rw [State.interruptCall_of_halt hcall]
      exact ⟨rfl, rfl, rfl, fun _ => rfl, fun _ _ => rfl⟩

/-- Settles O47: every form of another mnemonic lists its instructions, none of them `nop`, and executing it only advances. -/
theorem nopOnlyAdvances : Obligations.NopOnlyAdvances :=
  ⟨fun _ => rfl, assemble_nop_of_operands, fun _ _ _ _ h hnop => eq_nop_of_nop_mem h hnop, rfl,
    fun s => ⟨_, exec_nop s, rfl, s.jump_pcOnly _⟩⟩

end Sys2Proof.Machine

/-! PROOFS. The statements of spec/46_assembler.md: what `push` and `pop` do to the stack, what the extraction operators
give, and that the field of a branch leads to the operand it was made from. -/

namespace Sys2Proof.Machine

open Sys2Proof.Safety Sys2Proof.Asm

/-! ### A sum and a difference as words (R141, R142) -/

theorem addFlags_value (v w : Word) : (addFlags v w).value = v + w :=
  BitVec.eq_of_toNat_eq ((addFlags_value_toNat v w).trans (BitVec.toNat_add v w).symm)

theorem subFlags_value (v w : Word) : (subFlags v w).value = v - w := by
  apply BitVec.eq_of_toNat_eq
  rw [subFlags_value_toNat, BitVec.toNat_sub]
  have := w.isLt
  omega

/-! ### The stack pointer moved by one word (R250, R252) -/

/-- `s` after the instruction that `push` begins with: the stack pointer one word lower. -/
def State.lowerSp (s : State) : State := (s.writeFlagged sp (subFlags (s.x sp) 2#16)).advance

/-- `s` after the instruction that `pop` ends with: the stack pointer one word higher. -/
def State.raiseSp (s : State) : State := (s.writeFlagged sp (addFlags (s.x sp) 2#16)).advance

theorem exec_subi_sp (s : State) : exec (.subi sp 2#4) s = .next s.lowerSp := rfl

theorem exec_addi_sp (s : State) : exec (.addi sp 2#4) s = .next s.raiseSp := rfl

section
variable (s : State)

theorem State.lowerSp_regAndFlags : RegAndFlags sp s s.lowerSp := s.writeFlagged_advance_regAndFlags sp _

theorem State.raiseSp_regAndFlags : RegAndFlags sp s s.raiseSp := s.writeFlagged_advance_regAndFlags sp _

theorem State.x_lowerSp (q : Reg) : s.lowerSp.x q = if q = sp then s.x sp - 2#16 else s.x q := by
  rw [State.lowerSp, State.x_advance, State.x_writeFlagged, if_neg (show sp ≠ .r0 by decide), subFlags_value]

theorem State.x_raiseSp_sp : s.raiseSp.x sp = s.x sp + 2#16 := by
  rw [State.raiseSp, State.x_advance, State.x_writeFlagged, if_pos rfl, if_neg (show sp ≠ .r0 by decide), addFlags_value]

theorem State.c_lowerSp : s.lowerSp.c = decide ((s.x sp).toNat < 2) := s.c_writeFlagged sp _

theorem State.z_lowerSp : s.lowerSp.z = decide ((s.x sp).toNat = 2) :=
  (s.z_writeFlagged sp _).trans (subFlags_z_toNat _ _)

theorem State.c_raiseSp : s.raiseSp.c = decide (65536 ≤ (s.x sp).toNat + 2) := s.c_writeFlagged sp _

theorem State.z_raiseSp : s.raiseSp.z = decide (((s.x sp).toNat + 2) % 65536 = 0) :=
  (s.z_writeFlagged sp _).trans (addFlags_z _ _)

end

/-! ### The slot of `push` and the slot of `pop` (R251, R253) -/

theorem State.wordAddr_sp_one (s : State) : s.wordAddr sp 1#4 = s.x sp + 2#16 := rfl

/-- Offset 2 from the lowered stack pointer is where it was: `push` stores at the old one. -/
theorem State.wordAddr_lowerSp (s : State) : s.lowerSp.wordAddr sp 1#4 = s.x sp := by
  rw [State.wordAddr_sp_one, State.x_lowerSp, if_pos rfl, BitVec.sub_add_cancel]

/-- A check of the slot after the stack pointer has moved is the check of the old stack pointer before. -/
theorem checkWord_lowerSp (s : State) : checkWord s.lowerSp (s.lowerSp.wordAddr sp 1#4) = checkWord s (s.x sp) := by
  rw [State.wordAddr_lowerSp]
  rfl

/-- `s` after the instruction that `pop` begins with: the word above the stack pointer in register `d`. -/
def State.loadAboveSp (s : State) (d : Reg) : State := (s.setX d (s.word .data (s.x sp + 2#16))).advance

theorem State.x_loadAboveSp (s : State) (d q : Reg) :
    (s.loadAboveSp d).x q = if q = d then (if d = .r0 then 0#16 else s.word .data (s.x sp + 2#16)) else s.x q :=
  s.x_setX d q _

theorem State.loadAboveSp_regOnly (s : State) (d : Reg) : RegOnly d s (s.loadAboveSp d) := s.setX_advance_regOnly d _

/-- The stack pointer that the load leaves: the loaded word if that is where it went. -/
theorem State.x_loadAboveSp_sp (s : State) (d : Reg) :
    (s.loadAboveSp d).x sp = if d = sp then s.word .data (s.x sp + 2#16) else s.x sp := by
  rw [State.x_loadAboveSp]
  by_cases hd : d = sp
  · rw [if_pos hd.symm, if_pos hd, if_neg (hd ▸ by decide)]
  · rw [if_neg (Ne.symm hd), if_neg hd]

theorem exec_ld_above_sp {s : State} (d : Reg) (h : checkWord s (s.x sp + 2#16) = .ok ()) :
    exec (.ld d 1#4 sp) s = .next (s.loadAboveSp d) := by
  rw [← State.wordAddr_sp_one] at h
  rw [exec_ld_of_checkWord_ok h, State.wordAddr_sp_one, State.loadAboveSp]

/-! ### The two instructions of `push` and of `pop` -/

theorem execSeq_pair_of_fault {i j : Instr} {s t : State} {f : Fault} (hi : exec i s = .next t) (hj : exec j t = .fault f) :
    execSeq [i, j] s = .fault f := by
  rw [execSeq_cons_of_next _ hi, execSeq, hj]

theorem execSeq_pair_of_next {i j : Instr} {s t u : State} (hi : exec i s = .next t) (hj : exec j t = .next u) :
    execSeq [i, j] s = .next u := by
  rw [execSeq_cons_of_next _ hi, execSeq_singleton_of_next hj]

section
variable {s : State} (r : Reg)

/-- `push` stores the register as the subtraction left it, at the stack pointer as it was before. -/
theorem execSeq_push_of_checkWord_ok (h : checkWord s (s.x sp) = .ok ()) :
    execSeq [.subi sp 2#4, .st r 1#4 sp] s =
      .next (s.lowerSp.setWord .data (s.x sp) (s.lowerSp.x r)).advance := by
  have hstore := exec_st_of_checkWord_ok (r := r) ((checkWord_lowerSp s).trans h)
  rw [State.wordAddr_lowerSp] at hstore
  exact execSeq_pair_of_next (exec_subi_sp s) hstore

theorem execSeq_push_of_checkWord_error {f : Fault} (h : checkWord s (s.x sp) = .error f) :
    execSeq [.subi sp 2#4, .st r 1#4 sp] s = .fault f :=
  execSeq_pair_of_fault (exec_subi_sp s) (exec_st_of_checkWord_error ((checkWord_lowerSp s).trans h))

/-- `pop` raises the stack pointer that the load left. -/
theorem execSeq_pop_of_checkWord_ok (h : checkWord s (s.x sp + 2#16) = .ok ()) :
    execSeq [.ld r 1#4 sp, .addi sp 2#4] s =
      .next (s.loadAboveSp r).raiseSp :=
  execSeq_pair_of_next (exec_ld_above_sp r h) (exec_addi_sp _)

end

end Sys2Proof.Machine

namespace Sys2Proof.Asm

open Sys2Proof.Machine

/-! ### The extraction operators as shifts and masks (R257) -/

theorem hi_eq_shiftRight (x : Int) : hi x = x >>> (8 : Nat) := (Int.shiftRight_eq_div_pow x 8).symm

theorem hi16_eq_shiftRight (x : Int) : hi16 x = x >>> (16 : Nat) := (Int.shiftRight_eq_div_pow x 16).symm

theorem hi_natCast (n : Nat) : hi n = (n >>> 8 : Nat) := by
  rw [Nat.shiftRight_eq_div_pow, hi, Int.natCast_ediv]
  rfl

theorem lo_natCast (n : Nat) : lo n = (n &&& 0xff : Nat) := by
  rw [show n &&& 0xff = n % 256 from Nat.and_two_pow_sub_one_eq_mod n 8, lo, Int.natCast_emod]
  rfl

theorem lo16_natCast (n : Nat) : lo16 n = (n &&& 0xffff : Nat) := by
  rw [show n &&& 0xffff = n % 65536 from Nat.and_two_pow_sub_one_eq_mod n 16, lo16, Int.natCast_emod]
  rfl

/-- The two bytes put together. -/
theorem hi_mul_add_lo (x : Int) : hi x * 256 + lo x = x := Int.ediv_mul_add_emod x 256

/-! ### The field of a branch and where it leads (R261, R80) -/

/-- A distance that fits 16 signed bits and agrees with the branch's modulo 65536 is the branch's. -/
theorem dispDelta_toInt_eq {here : Word} {target k : Int} (hwrap : (target - (here.toNat + 2 + k)) % 65536 = 0)
    (hlow : -32768 ≤ k) (hhigh : k < 32768) : (dispDelta here target).toInt = k := by
  have hdelta := dispDelta_emod here target
  have hdeltaLow : -32768 ≤ (dispDelta here target).toInt := BitVec.le_toInt _
  have hdeltaHigh : (dispDelta here target).toInt < 32768 := BitVec.toInt_lt
  omega

/-- Whatever field the assembler gives, the processor's target from it is the operand. -/
theorem branchTarget_of_dispField {s : State} {target : Int} {d : Byte} (h : dispField s.pc target = some d) :
    s.branchTarget d = BitVec.ofInt 16 target := by
  have hdelta := dispDelta_emod s.pc target
  rw [(dispField_eq_some ..).1 h] at hdelta
  have htarget := s.branchTarget_toNat d
  apply BitVec.eq_of_toNat_eq
  rw [BitVec.toNat_ofInt]
  omega

end Sys2Proof.Asm

namespace Sys2Proof.Machine

open Sys2Proof.Safety Sys2Proof.Asm

/-! ### The statements -/

/-- Settles O52: the subtraction moves the stack pointer, and the store or the stop is at where it was. -/
theorem pushStoresAtTheOldStackPointer : Obligations.PushStoresAtTheOldStackPointer := by
  refine fun c r => ⟨rfl, fun s => ⟨fun hodd => ?misaligned, fun heven hfirst hsecond => ?stored⟩⟩
  case misaligned => exact execSeq_push_of_checkWord_error r ((checkWord_error s _ _).2 (.inl ⟨hodd, rfl⟩))
  case stored =>
    have hcheck : checkWord s (s.x sp) = .ok () := (checkWord_ok s _ ()).2 ⟨heven, hfirst, hsecond⟩
    obtain ⟨hregs, hps, _, _⟩ := s.lowerSp_regAndFlags
    obtain ⟨_, _, hbytes, hsplit, hunified, hrest⟩ :=
      storeOnly_advance (s.lowerSp.setWord_storeOnly (s.x sp) (s.lowerSp.x r))
    refine ⟨_, execSeq_push_of_checkWord_ok r hcheck, s.x_lowerSp sp, ?slot, hregs, s.c_lowerSp, s.z_lowerSp, hps,
      BitVec.add_assoc .., fun q b hb hb' => hbytes q b (by simp [hb, hb']), hsplit, hunified, hrest⟩
    case slot => rw [State.word_advance, State.word_setWord, State.x_lowerSp]

/-- Settles O53: the load writes the destination, and the addition then moves the stack pointer as the load left it. -/
theorem popLoadsTheLastPushedWord : Obligations.PopLoadsTheLastPushedWord := by
  refine fun c d => ⟨rfl, fun s => ?_⟩
  intro ea old heven hfirst hsecond
  have hcheck : checkWord s ea = .ok () := (checkWord_ok s ea ()).2 ⟨heven, hfirst, hsecond⟩
  have hold : (s.loadAboveSp d).x sp = old := s.x_loadAboveSp_sp d
  obtain ⟨hloaded, hloadedPs, hloadedMem, _⟩ := s.loadAboveSp_regOnly d
  obtain ⟨hregs, hps, hmem, hrest⟩ := (s.loadAboveSp d).raiseSp_regAndFlags
  refine ⟨_, execSeq_pop_of_checkWord_ok d hcheck, ?pointer, fun hd => ?value, fun r hrd hr => ?others, ?carry, ?zero,
    fun i h7 h6 => ?status, BitVec.add_assoc .., fun p b => (hmem p b).trans (hloadedMem p b), hrest⟩
  case pointer => rw [State.x_raiseSp_sp, hold]
  case value => rw [hregs d hd, State.x_loadAboveSp, if_pos rfl]
  case others => rw [hregs r hr, hloaded r hrd]
  case carry => rw [State.c_raiseSp, hold]
  case zero => rw [State.z_raiseSp, hold]
  case status => rw [hps i h7 h6, hloadedPs]

/-- Settles O60: half of the distance fits the field, and any field that the assembler gives leads to its operand. -/
theorem assembledBranchReachesItsTarget : Obligations.AssembledBranchReachesItsTarget := by
  intro s target k hwrap heven hlow hhigh
  have hdelta : (dispDelta s.pc target).toInt = k := dispDelta_toInt_eq hwrap (by omega) (by omega)
  have hhalf : (BitVec.ofInt 8 (k / 2)).toInt = k / 2 :=
    BitVec.toInt_ofInt_eq_self (by decide) (by norm_num; omega) (by norm_num; omega)
  have htwice : 2 * (BitVec.ofInt 8 (k / 2)).toInt = k := by rw [hhalf]; omega
  have hfield : dispField s.pc target = some (BitVec.ofInt 8 (k / 2)) :=
    (dispField_eq_some ..).2 (hdelta.trans htwice.symm)
  exact ⟨_, hfield, htwice, branchTarget_of_dispField hfield⟩

/-- Settles O59: quotients and remainders by powers of two are shifts and masks, and put together they are the value. -/
theorem extractionOperatorsSplitAValue : Obligations.ExtractionOperatorsSplitAValue := by
  intro x
  refine ⟨hi_eq_shiftRight x, hi16_eq_shiftRight x, rfl, rfl, fun n hn => ?natural, (hi_mul_add_lo x).symm,
    Int.emod_nonneg x (by decide), Int.emod_lt_of_pos x (by decide), fun hlow hhigh => ?byte⟩
  case natural =>
    subst hn
    exact ⟨hi_natCast n, lo_natCast n, lo16_natCast n⟩
  case byte => exact ⟨Int.ediv_nonneg hlow (by decide), Int.ediv_lt_of_lt_mul (by decide) hhigh⟩

end Sys2Proof.Machine

/-! PROOFS. The statements of spec/60_exceptions.md and spec/70_reset_and_hazards.md: which instructions cannot stop, which
stop in user mode, which reach the environment, and what a run is launched from. -/

namespace Sys2Proof.Machine

open Sys2Proof.Safety

/-! ### What reaches the environment (R240, R296, R300) -/

/-- Of all effects only a call writes the run status or the count of calls. -/
theorem InstrEffect.run_and_envTick_eq {i : Instr} {s t : State} (he : InstrEffect s i t) (hint : ∀ n, i ≠ .int n) :
    t.run = s.run ∧ t.envTick = s.envTick := by
  cases he with
  | call n => exact absurd rfl (hint n)
  | reg | flagged | flags | word | byte | fallThrough | branch | jal => exact ⟨rfl, rfl⟩

/-! ### The supervisor-only instructions in user mode (R292) -/

/-- The check of the mode comes first in all three, before the system register number is looked at (R285). -/
theorem exec_of_supervisorOnly_user {i : Instr} {s : State} (hi : supervisorOnly i = true) (hk : s.k = false) :
    exec i s = .fault (.privilegeViolation (encode i)) := by
  cases i with
  | lds d n => exact privileged_user (.lds d n) s _ hk
  | sts r n => exact privileged_user (.sts r n) s _ hk
  | iret => exact privileged_user .iret s _ hk
  | _ => cases hi

/-- The word at the pc is the word of the instruction fetched there: no two words decode to one instruction (R84). -/
theorem encode_of_fetchInstr {i : Instr} {s : State} (h : fetchInstr s = .ok i) : encode i = s.word .instr s.pc := by
  obtain ⟨w, hfetch, hdecode⟩ := (fetchInstr_ok s i).1 h
  obtain ⟨_, _, _, rfl⟩ := (fetchWord_ok s w).1 hfetch
  exact encode_of_decode hdecode

/-! ### The instructions that cannot stop (R281) -/

/-- A short branch answers next whether it is taken or not. -/
theorem branchIf_answers (cond : Bool) (d : Byte) (s : State) : ∃ t, branchIf cond d s = .next t :=
  ⟨_, (branchIf_next cond d s _).2 rfl⟩

/-- Each computes without a check and falls through, or moves the pc itself. -/
theorem exec_next_of_neverStops {i : Instr} (s : State) (hi : neverStops i = true) : ∃ t, exec i s = .next t := by
  cases i with
  | add | addi | sub | subi | cmp | and | or | xor | not | rol | ror | sl | sr | srl | sethi | movbImm | nop =>
    exact ⟨_, finish_ok _⟩
  | bl | be | bne | bge | bg | b => exact branchIf_answers _ _ s
  | jal r o a => exact ⟨_, exec_jal r o a s⟩
  | ld | st | ldb | stb | lds | sts | int | iret => cases hi

/-! ### The reset state (R34, R311) -/

theorem State.reset_isLaunch : IsLaunch State.reset := by
  refine ⟨?pc, ?mode, State.reset_run⟩
  case pc => rw [State.reset_pc, Config.entryPc]; rfl
  case mode => rw [State.k, State.reset_ps]; rfl

/-! ### The statements -/

/-- Settles O17: by the effects an instruction other than `int` can have. -/
theorem onlyIntReachesTheEnvironment : Obligations.OnlyIntReachesTheEnvironment :=
  fun _ _ _ hint h => (exec_instrEffect h).run_and_envTick_eq hint

/-- Settles O31: the stop records the word of the instruction, which is the word fetched. -/
theorem supervisorOnlyInstructionsStopInUserMode : Obligations.SupervisorOnlyInstructionsStopInUserMode := by
  intro i s hi hk
  have hstop : exec i s = .fault (.privilegeViolation (encode i)) := exec_of_supervisorOnly_user hi hk
  refine ⟨hstop, fun hrun hfetch => ?_⟩
  rw [step_of_fetchInstr_ok hrun hfetch, hstop, encode_of_fetchInstr hfetch]

/-- Settles O20: by cases on the instruction, those that may stop being outside the list. -/
theorem listedInstructionsNeverStop : Obligations.ListedInstructionsNeverStop := fun _ s => exec_next_of_neverStops s

/-- Settles O11: the launch conditions, the canonical form of an empty memory, and register 0 as in every state. -/
theorem resetIsALaunchState : Obligations.ResetIsALaunchState :=
  ⟨State.reset_isLaunch, State.reset_mem_wf, State.reset.x_r0⟩

end Sys2Proof.Machine
